-- ==== Sys2Proof/Word.lean ====
section
/-! DEFINITION. The bit-vector types of the machine (00_scope.md R10, R11). -/

namespace Sys2Proof

/-- A general register, `pc`, `nextPc`, `hi` or `lo`: 64 bits (R16, R22, R25). -/
abbrev Word := BitVec 64

/-- A 32-bit memory word, an instruction word, or an address after the reduction modulo 2^32 (R39, R68). -/
abbrev Word32 := BitVec 32

/-- The smallest addressable unit of memory (R30, R31). -/
abbrev Byte := BitVec 8

/-- A register field rs, rt or rd of an instruction word (R69). -/
abbrev RegIx := BitVec 5

end Sys2Proof
end

