-- ==== Sys2Proof/Config.lean ====
section
/-! DEFINITION. What an implementation fixes: the sizes of R10, and the parameters the spec leaves OPEN
(92_eei_decisions.md D4, D5, D9, D13) as the fields of `Config`. -/

namespace Sys2Proof

/-- WORKING_SIZE, 8 MiB (R10, R30). -/
def workingSize : Nat := 0x800000

/-- IMAGE_SIZE, 64 MiB (R10, R31). -/
def imageSize : Nat := 0x4000000

/-- What a byte of a buffer reads as where the memory lists no entry for it.
DESIGN CHOICE (log entry 3): a listing over this byte can represent every content of a buffer, so a statement about
every state holds for every draw of INIT_WORKING and INIT_IMAGE; only `State.reset` is fixed by it. -/
def unlistedByte : Byte := 0x00#8

/-- The OPEN parameters of R10. -/
structure Config where
  /-- RESET_VECTOR (D4): where `reset()` points `pc`. -/
  resetVector : Word
  /-- DEFAULT_ENTRY (D5): the entry address of an image of at most 0x38 bytes. -/
  defaultEntry : Word32
  /-- DECODE_FUNCT19 (D13): whether SPECIAL funct 0x19 decodes as MULTU. -/
  decodeFunct19 : Bool
  /-- INIT_WORKING (D9): the contents of `working` at construction. -/
  initWorking : List Host.Cell
  /-- INIT_IMAGE (D9): the contents of `image` at construction. -/
  initImage : List Host.Cell
deriving DecidableEq, Repr

/-- DEFAULT_ENTRY of the chosen configuration: the spec gives no number (D5), so nothing constrains it (log entry 2). -/
opaque Config.freeDefaultEntry : Word32

/-- The configuration `State.reset` and `step` are taken at.
DESIGN CHOICE (log entries 1 to 4): RESET_VECTOR is the lowest address D4 admits, which is backed by `working` (R53);
DECODE_FUNCT19 is the spec's default; nothing is listed in either buffer. -/
def Config.chosen : Config where
  resetVector := 0xA0000000#64
  defaultEntry := Config.freeDefaultEntry
  decodeFunct19 := true
  initWorking := []
  initImage := []

/-- D4's constraint on RESET_VECTOR: the unmapped, uncached segment. -/
abbrev Config.ResetVectorInSegment (c : Config) : Prop :=
  0xA0000000 ≤ c.resetVector.toNat ∧ c.resetVector.toNat ≤ 0xBFFFFFFF

end Sys2Proof
end

