-- ==== Sys2Proof/Syntax.lean ====
section
/-! DEFINITION. The instructions: one constructor per row of spec/opcode_table.json, operands in the order of the
assembler forms of 30_encoding.md R78. A field the instruction ignores (R75) is no operand. -/

namespace Sys2Proof

/-- The 23 mnemonics of R2, MULTU's second encoding (R113) and the fallback row (R90). -/
inductive Instr where
  /-- J target (R99) -/
  | j (target : BitVec 26)
  /-- JAL target (R100) -/
  | jal (target : BitVec 26)
  /-- BEQ rs, rt, imm (R101) -/
  | beq (rs rt : RegIx) (imm : BitVec 16)
  /-- BNE rs, rt, imm (R102) -/
  | bne (rs rt : RegIx) (imm : BitVec 16)
  /-- ADDI rt, rs, imm (R94) -/
  | addi (rt rs : RegIx) (imm : BitVec 16)
  /-- ADDIU rt, rs, imm (R95) -/
  | addiu (rt rs : RegIx) (imm : BitVec 16)
  /-- ANDI rt, rs, imm (R96) -/
  | andi (rt rs : RegIx) (imm : BitVec 16)
  /-- ORI rt, rs, imm (R97) -/
  | ori (rt rs : RegIx) (imm : BitVec 16)
  /-- LUI rt, imm (R98) -/
  | lui (rt : RegIx) (imm : BitVec 16)
  /-- LW rt, imm(rs) (R106) -/
  | lw (rt : RegIx) (imm : BitVec 16) (rs : RegIx)
  /-- SW rt, imm(rs) (R107) -/
  | sw (rt : RegIx) (imm : BitVec 16) (rs : RegIx)
  /-- SLL rd, rt, sa (R109) -/
  | sll (rd rt : RegIx) (sa : BitVec 5)
  /-- SRL rd, rt, sa (R110) -/
  | srl (rd rt : RegIx) (sa : BitVec 5)
  /-- JR rs (R103) -/
  | jr (rs : RegIx)
  /-- JALR rd, rs (R104) -/
  | jalr (rd rs : RegIx)
  /-- MFLO rd (R111) -/
  | mflo (rd : RegIx)
  /-- MULTU rs, rt, funct 0x18 (R112) -/
  | multu (rs rt : RegIx)
  /-- MULTU rs, rt, funct 0x19, row MULTU_19 (R113) -/
  | multu19 (rs rt : RegIx)
  /-- ADD rd, rs, rt (R114) -/
  | add (rd rs rt : RegIx)
  /-- ADDU rd, rs, rt (R115) -/
  | addu (rd rs rt : RegIx)
  /-- SUB rd, rs, rt (R116) -/
  | sub (rd rs rt : RegIx)
  /-- SUBU rd, rs, rt (R117) -/
  | subu (rd rs rt : RegIx)
  /-- AND rd, rs, rt (R118) -/
  | and (rd rs rt : RegIx)
  /-- OR rd, rs, rt (R119) -/
  | or (rd rs rt : RegIx)
  /-- A word that matches no other row (R76, R90). The word is kept so that no bit of it is lost. -/
  | unrecognised (w : Word32)
deriving DecidableEq, Repr

/-- The row of spec/opcode_table.json an instruction stands for. -/
def Instr.mnemonic : Instr → String
  | .j .. => "J"
  | .jal .. => "JAL"
  | .beq .. => "BEQ"
  | .bne .. => "BNE"
  | .addi .. => "ADDI"
  | .addiu .. => "ADDIU"
  | .andi .. => "ANDI"
  | .ori .. => "ORI"
  | .lui .. => "LUI"
  | .lw .. => "LW"
  | .sw .. => "SW"
  | .sll .. => "SLL"
  | .srl .. => "SRL"
  | .jr .. => "JR"
  | .jalr .. => "JALR"
  | .mflo .. => "MFLO"
  | .multu .. => "MULTU"
  | .multu19 .. => "MULTU_19"
  | .add .. => "ADD"
  | .addu .. => "ADDU"
  | .sub .. => "SUB"
  | .subu .. => "SUBU"
  | .and .. => "AND"
  | .or .. => "OR"
  | .unrecognised _ => "UNRECOGNISED"

end Sys2Proof
end

