-- ==== Sys2Proof/WellFormed.lean ====
section
/-! DEFINITION. Which instructions some word encodes: the operand types hold every register, immediate and target
field, so only MULTU_19 (R113) and the fallback row (R76) carry a check. The lists below are written from the maps of
R73 and R74, apart from the decoder, so that each checks the other. -/

namespace Sys2Proof

/-- The primary opcodes of R73, SPECIAL (0x00) apart. -/
def recognisedOps : List (BitVec 6) :=
  [0x02#6, 0x03#6, 0x04#6, 0x05#6, 0x08#6, 0x09#6, 0x0C#6, 0x0D#6, 0x0F#6, 0x23#6, 0x2B#6]

/-- The SPECIAL function codes of R74, 0x19 apart. -/
def recognisedFuncts : List (BitVec 6) :=
  [0x00#6, 0x02#6, 0x08#6, 0x09#6, 0x12#6, 0x18#6, 0x20#6, 0x21#6, 0x22#6, 0x23#6, 0x24#6, 0x25#6]

/-- A word whose bits 31:26, or whose bits 5:0 under opcode 0, stand in the maps of R73 and R74. -/
def recognisedWord (c : Config) (w : Word32) : Bool :=
  if w.extractLsb' 26 6 = 0#6 then
    recognisedFuncts.contains (w.extractLsb' 0 6) || (c.decodeFunct19 && w.extractLsb' 0 6 == 0x19#6)
  else recognisedOps.contains (w.extractLsb' 26 6)

/-- MULTU_19 exists only where DECODE_FUNCT19 holds; the fallback row holds only words no other row matches. -/
def Instr.wellFormed (c : Config) : Instr → Bool
  | .multu19 _ _ => c.decodeFunct19
  | .unrecognised w => !recognisedWord c w
  | .j _ => true
  | .jal _ => true
  | .beq _ _ _ => true
  | .bne _ _ _ => true
  | .addi _ _ _ => true
  | .addiu _ _ _ => true
  | .andi _ _ _ => true
  | .ori _ _ _ => true
  | .lui _ _ => true
  | .lw _ _ _ => true
  | .sw _ _ _ => true
  | .sll _ _ _ => true
  | .srl _ _ _ => true
  | .jr _ => true
  | .jalr _ _ => true
  | .mflo _ => true
  | .multu _ _ => true
  | .add _ _ _ => true
  | .addu _ _ _ => true
  | .sub _ _ _ => true
  | .subu _ _ _ => true
  | .and _ _ _ => true
  | .or _ _ _ => true

end Sys2Proof
end

