-- ==== Sys2Proof/Decode.lean ====
section
/-! DEFINITION. The decoder of 30_encoding.md (R68 to R76), total on words and on byte strings, and the encoder
written from the same maps with the zeros R78 puts into ignored fields. -/

namespace Sys2Proof

/-! ## Fields (R69) -/

def opField (w : Word32) : BitVec 6 := w.extractLsb' 26 6
def rsField (w : Word32) : RegIx := w.extractLsb' 21 5
def rtField (w : Word32) : RegIx := w.extractLsb' 16 5
def rdField (w : Word32) : RegIx := w.extractLsb' 11 5
def saField (w : Word32) : BitVec 5 := w.extractLsb' 6 5
def functField (w : Word32) : BitVec 6 := w.extractLsb' 0 6
def immField (w : Word32) : BitVec 16 := w.extractLsb' 0 16
def targetField (w : Word32) : BitVec 26 := w.extractLsb' 0 26

/-! ## Decoding -/

/-- The SPECIAL function map (R74), for a word of opcode 0. -/
def decodeSpecial (c : Config) (w : Word32) : Instr :=
  match functField w with
  | 0x00#6 => .sll (rdField w) (rtField w) (saField w)
  | 0x02#6 => .srl (rdField w) (rtField w) (saField w)
  | 0x08#6 => .jr (rsField w)
  | 0x09#6 => .jalr (rdField w) (rsField w)
  | 0x12#6 => .mflo (rdField w)
  | 0x18#6 => .multu (rsField w) (rtField w)
  | 0x19#6 => if c.decodeFunct19 then .multu19 (rsField w) (rtField w) else .unrecognised w
  | 0x20#6 => .add (rdField w) (rsField w) (rtField w)
  | 0x21#6 => .addu (rdField w) (rsField w) (rtField w)
  | 0x22#6 => .sub (rdField w) (rsField w) (rtField w)
  | 0x23#6 => .subu (rdField w) (rsField w) (rtField w)
  | 0x24#6 => .and (rdField w) (rsField w) (rtField w)
  | 0x25#6 => .or (rdField w) (rsField w) (rtField w)
  | _ => .unrecognised w

/-- The primary opcode map (R73). Every word has a meaning (R68, R76). -/
def decode (c : Config) (w : Word32) : Instr :=
  match opField w with
  | 0x00#6 => decodeSpecial c w
  | 0x02#6 => .j (targetField w)
  | 0x03#6 => .jal (targetField w)
  | 0x04#6 => .beq (rsField w) (rtField w) (immField w)
  | 0x05#6 => .bne (rsField w) (rtField w) (immField w)
  | 0x08#6 => .addi (rtField w) (rsField w) (immField w)
  | 0x09#6 => .addiu (rtField w) (rsField w) (immField w)
  | 0x0C#6 => .andi (rtField w) (rsField w) (immField w)
  | 0x0D#6 => .ori (rtField w) (rsField w) (immField w)
  | 0x0F#6 => .lui (rtField w) (immField w)
  | 0x23#6 => .lw (rtField w) (immField w) (rsField w)
  | 0x2B#6 => .sw (rtField w) (immField w) (rsField w)
  | _ => .unrecognised w

/-- Why a byte string holds no instruction. The machine never meets this: a fetch always reads four bytes (R81). -/
inductive DecodeRefusal where
  /-- Fewer than the four bytes of one instruction word (R68). -/
  | truncated
deriving DecidableEq, Repr

/-- The first four bytes of a byte string as a big-endian instruction word (R44, R68), decoded, with the bytes left. -/
def decodeBytes (c : Config) : List Byte → Except DecodeRefusal (Instr × List Byte)
  | b0 :: b1 :: b2 :: b3 :: rest => .ok (decode c (b0 ++ b1 ++ b2 ++ b3), rest)
  | _ => .error .truncated

/-! ## Encoding -/

/-- The I format (R70). -/
def encodeI (op : BitVec 6) (rs rt : RegIx) (imm : BitVec 16) : Word32 := op ++ rs ++ rt ++ imm

/-- The J format (R70). -/
def encodeJ (op : BitVec 6) (target : BitVec 26) : Word32 := op ++ target

/-- The R format (R70), of opcode 0. -/
def encodeR (rs rt rd : RegIx) (sa : BitVec 5) (funct : BitVec 6) : Word32 :=
  0x00#6 ++ rs ++ rt ++ rd ++ sa ++ funct

/-- The word of an instruction (R73, R74), a field it ignores being 0 (R78). -/
def encode : Instr → Word32
  | .j target => encodeJ 0x02#6 target
  | .jal target => encodeJ 0x03#6 target
  | .beq rs rt imm => encodeI 0x04#6 rs rt imm
  | .bne rs rt imm => encodeI 0x05#6 rs rt imm
  | .addi rt rs imm => encodeI 0x08#6 rs rt imm
  | .addiu rt rs imm => encodeI 0x09#6 rs rt imm
  | .andi rt rs imm => encodeI 0x0C#6 rs rt imm
  | .ori rt rs imm => encodeI 0x0D#6 rs rt imm
  | .lui rt imm => encodeI 0x0F#6 0 rt imm
  | .lw rt imm rs => encodeI 0x23#6 rs rt imm
  | .sw rt imm rs => encodeI 0x2B#6 rs rt imm
  | .sll rd rt sa => encodeR 0 rt rd sa 0x00#6
  | .srl rd rt sa => encodeR 0 rt rd sa 0x02#6
  | .jr rs => encodeR rs 0 0 0 0x08#6
  | .jalr rd rs => encodeR rs 0 rd 0 0x09#6
  | .mflo rd => encodeR 0 0 rd 0 0x12#6
  | .multu rs rt => encodeR rs rt 0 0 0x18#6
  | .multu19 rs rt => encodeR rs rt 0 0 0x19#6
  | .add rd rs rt => encodeR rs rt rd 0 0x20#6
  | .addu rd rs rt => encodeR rs rt rd 0 0x21#6
  | .sub rd rs rt => encodeR rs rt rd 0 0x22#6
  | .subu rd rs rt => encodeR rs rt rd 0 0x23#6
  | .and rd rs rt => encodeR rs rt rd 0 0x24#6
  | .or rd rs rt => encodeR rs rt rd 0 0x25#6
  | .unrecognised w => w

/-- The bytes of a word, the first at the lowest address (R44). -/
def wordBytes (w : Word32) : List Byte :=
  [w.extractLsb' 24 8, w.extractLsb' 16 8, w.extractLsb' 8 8, w.extractLsb' 0 8]

/-- The bytes an instruction stands in memory as (R44, R68). -/
def encodeBytes (i : Instr) : List Byte := wordBytes (encode i)

/-! ## The host's view of the opcode table -/

/-- The 32-bit word whose bits are `w`, the bits from `nbits` up being 0. -/
def tableWord (nbits w : Nat) : Word32 := BitVec.ofNat 32 (w % 2 ^ nbits)

/-- What the decoder reads from the bytes of `tableWord nbits w`, under the chosen configuration. -/
def decodeTableWord (nbits w : Nat) : Option Instr :=
  match decodeBytes Config.chosen (wordBytes (tableWord nbits w)) with
  | .ok (i, _) => some i
  | .error _ => none

end Sys2Proof
end

