-- ==== Sys2Proof/Machine/State.lean ====
section
/-! DEFINITION. The state of the block (10_state.md), as plain data, and the reasons a step can stop. -/

namespace Sys2Proof.Machine

/-- The contents of a buffer: (offset, byte) pairs in one canonical form, `Memory.wf`. An offset that is not listed
reads as `unlistedByte`. -/
abbrev Memory := List Host.Cell

/-- Offsets from `lo` up, strictly rising, below `size`, and no entry equal to what an unlisted offset reads as. -/
def Memory.wfFrom (size lo : Nat) : Memory → Bool
  | [] => true
  | c :: m => decide (lo ≤ c.1) && decide (c.1 < size) && (c.2 != unlistedByte) && Memory.wfFrom size (c.1 + 1) m

/-- The canonical form of a buffer of capacity `size`. -/
def Memory.wf (size : Nat) (m : Memory) : Bool := Memory.wfFrom size 0 m

/-- The tag `loadImage` sets (R32). -/
inductive ByteOrder where
  | nativeBig
  | byteSwapped
  | littleEndian
  /-- No image has been loaded (R35). -/
  | unknown
deriving DecidableEq, Repr

/-- The state record of 10_state.md. -/
structure State where
  /-- The general registers (R16). -/
  x : Vector Word 32
  /-- The address of the instruction being stepped (R22). -/
  pc : Word
  /-- The address the step after this one fetches (R23). -/
  nextPc : Word
  /-- Bits 63:32 of the last product (R25). -/
  hi : Word
  /-- Bits 31:0 of the last product (R25). -/
  lo : Word
  /-- The steps taken since the last reset (R26). -/
  cycles : Nat
  /-- The driver's run flag (R27). -/
  running : Bool
  /-- The 8 MiB writable buffer, by physical offset (R30). -/
  working : Memory
  /-- The 64 MiB image buffer, by offset (R31). -/
  image : Memory
  /-- The byte order of the loaded image (R32). -/
  imageByteOrder : ByteOrder
  /-- The model's own field (log entry 6): `reset()` has been called since construction (R135). -/
  wasReset : Bool
deriving DecidableEq, Repr

/-- The block has no exception, interrupt or trap, and every operation of the core is total (R120 to R126): no step
ends in a fault, so there is no reason for one. Safe: nothing raises it. -/
inductive Fault where
deriving DecidableEq, Repr

/-- Why a step has no meaning. -/
inductive Refusal where
  /-- An arm of `exec` whose instruction has no meaning yet. No arm raises it. Safe. -/
  | notModelled (mnemonic : String)
  /-- `step` raises it when `reset()` has not been called since construction: R135 leaves the core fields without a
  value there and asks a model to refuse the step (D10). Safe: the machine stops where the spec describes nothing. -/
  | stepBeforeReset
deriving DecidableEq, Repr

/-- The machine right after construction and `reset()` under `Config.chosen` (R34, R35). DESIGN CHOICE, log entries 1
and 3: the value of `pc`, and that neither buffer lists a byte. The tag is that of construction, Unknown by decision D16
(log entry 5). -/
def State.reset : State where
  x := Vector.replicate 32 0#64
  pc := Config.chosen.resetVector
  nextPc := Config.chosen.resetVector + 4
  hi := 0#64
  lo := 0#64
  cycles := 0
  running := false
  working := Config.chosen.initWorking
  image := Config.chosen.initImage
  imageByteOrder := .unknown
  wasReset := true

end Sys2Proof.Machine
end

