-- ==== Sys2Proof/Machine/Ops.lean ====
section
/-! DEFINITION. The named operations over registers, buffers and the virtual address space (00_scope.md R13,
20_memory.md), and the phases of a step around the execute phase (40_step.md). Every update is written as one
structure update, so that each field of its result is known by `rfl`. There is no operation that takes an exception
or returns from one: the block has neither (60_exceptions.md R120, R124, R125). -/

namespace Sys2Proof.Machine

/-! ## Registers (R13, R18, R86) -/

/-- `x[i]`. The read is of the stored register: `x[0]` is kept 0 by discarded writes and the re-pin (R18, R139). -/
def State.readReg (s : State) (i : RegIx) : Word := s.x[i.toNat]

/-- `x[i] <- v`; nothing happens when i is 0. -/
def State.writeReg (s : State) (i : RegIx) (v : Word) : State :=
  { s with x := if i = 0#5 then s.x else s.x.set i.toNat v }

/-- `nextPc <- v`. -/
def State.setNextPc (s : State) (v : Word) : State := { s with nextPc := v }

/-- `hi <- h` and `lo <- l`. -/
def State.setHiLo (s : State) (h l : Word) : State := { s with hi := h, lo := l }

/-! ## Buffers (R44) -/

/-- The byte of a buffer at an offset. -/
def Memory.readByte (m : Memory) (o : Nat) : Byte :=
  match m with
  | [] => unlistedByte
  | c :: rest => if c.1 = o then c.2 else Memory.readByte rest o

/-- A cell put in front of the first cell of a higher offset. -/
def Memory.insertCell (m : Memory) (o : Nat) (b : Byte) : Memory :=
  match m with
  | [] => [(o, b)]
  | c :: rest => if o < c.1 then (o, b) :: c :: rest else c :: Memory.insertCell rest o b

/-- A byte stored at an offset, the canonical form kept. -/
def Memory.writeByte (m : Memory) (o : Nat) (b : Byte) : Memory :=
  if b = unlistedByte then m.filter (fun c => c.1 != o)
  else Memory.insertCell (m.filter (fun c => c.1 != o)) o b

/-- Bytes stored at consecutive offsets. -/
def Memory.writeBytes (m : Memory) (o : Nat) : List Byte → Memory
  | [] => m
  | b :: bs => Memory.writeBytes (Memory.writeByte m o b) (o + 1) bs

/-- BE32: the big-endian word at an offset (R44). -/
def Memory.readWord (m : Memory) (o : Nat) : Word32 :=
  m.readByte o ++ m.readByte (o + 1) ++ m.readByte (o + 2) ++ m.readByte (o + 3)

/-- A word stored big-endian at an offset (R44). -/
def Memory.writeWord (m : Memory) (o : Nat) (v : Word32) : Memory := Memory.writeBytes m o (wordBytes v)

/-! ## The virtual address space (R39 to R48) -/

/-- An address reduced modulo 2^32 (R39). -/
def virtualAddress (addr : Word) : Word32 := addr.setWidth 32

/-- The image window, both ends included (R42). -/
def inWindow (a : Word32) : Bool := decide (0x10000000 ≤ a.toNat) && decide (a.toNat ≤ 0x13FFFFFF)

/-- The offset into `image` of a window address (R42). -/
def windowOffset (a : Word32) : Nat := a.toNat - 0x10000000

/-- The physical offset into `working` (R40). -/
def translate (a : Word32) : Word32 :=
  if 0x80000000 ≤ a.toNat ∧ a.toNat ≤ 0xBFFFFFFF then a &&& 0x1FFFFFFF#32 else a

/-- All four bytes from an offset lie inside a buffer of a capacity (R43). -/
def inBounds (off size : Nat) : Bool := decide (off + 4 ≤ size)

/-- read32 (R45), at any byte address (R48). -/
def State.read32 (s : State) (addr : Word) : Word32 :=
  let a := virtualAddress addr
  if inWindow a && inBounds (windowOffset a) imageSize then s.image.readWord (windowOffset a)
  else if inBounds (translate a).toNat workingSize then s.working.readWord (translate a).toNat
  else 0#32

/-- What `working` becomes under write32 (R46): the window and out-of-range addresses discard the write. -/
def storeWorking (m : Memory) (addr : Word) (v : Word32) : Memory :=
  let a := virtualAddress addr
  if inWindow a then m
  else if inBounds (translate a).toNat workingSize then m.writeWord (translate a).toNat v
  else m

/-- write32 (R46): only the low 32 bits of the value are used. -/
def State.write32 (s : State) (addr v : Word) : State :=
  { s with working := storeWorking s.working addr (v.setWidth 32) }

/-! ## The phases of a step around the execute phase (R80) -/

/-- The instruction word at `pc` (R81). -/
def State.fetch (s : State) : Word32 := s.read32 s.pc

/-- Phase 4: `x[0] := 0` (R87). -/
def State.repin (s : State) : State := { s with x := s.x.set 0 0#64 }

/-- Phase 5: `pc <- nextPc`, then `nextPc <- pc + 4` of the new `pc` (R88). -/
def State.advance (s : State) : State := { s with pc := s.nextPc, nextPc := s.nextPc + 4 }

/-- Phase 6: `cycles := cycles + 1` (R89). -/
def State.count (s : State) : State := { s with cycles := s.cycles + 1 }

/-- Phases 4 to 6. -/
def State.commit (s : State) : State := s.repin.advance.count

/-! ## Placing an instruction where the next step fetches it (R139) -/

/-- A state whose fetch returns `w`. Where `pc` is backed, only the four bytes it fetches change. Where it is not, no
byte can be placed, and the fetch needs a backed `pc`: the start state of 95_test_vectors.md, 0x8000_1000, is taken.
A machine that was never reset takes no step (R135), so the placement stands for the reset too. -/
def State.placeFetch (s : State) (w : Word32) : State :=
  let a := virtualAddress s.pc
  if inWindow a && inBounds (windowOffset a) imageSize then
    { s with image := s.image.writeWord (windowOffset a) w, wasReset := true }
  else if inBounds (translate a).toNat workingSize then
    { s with working := s.working.writeWord (translate a).toNat w, wasReset := true }
  else
    { s with
      pc := 0x80001000#64
      nextPc := 0x80001004#64
      working := s.working.writeWord 0x1000 w
      wasReset := true }

end Sys2Proof.Machine
end

