-- ==== Sys2Proof/Machine/Operands.lean ====
section
/-! DEFINITION. The operand forms of 30_encoding.md R71, the one addressing mode of 43_loadstore.md R108, and the link
value of 42_control.md R105. -/

namespace Sys2Proof.Machine

/-- `simm`: the immediate sign-extended to 64 bits. -/
def simm (imm : BitVec 16) : Word := imm.signExtend 64

/-- `zimm`: the immediate zero-extended. -/
def zimm (imm : BitVec 16) : Word := imm.setWidth 64

/-- `luimm`: the immediate in bits 31:16, not sign-extended. -/
def luimm (imm : BitVec 16) : Word := imm.setWidth 64 <<< 16

/-- `pc + 4 + simm_int(imm) * 4`, modulo 2^64. -/
def State.branchTarget (s : State) (imm : BitVec 16) : Word := s.pc + 4 + BitVec.ofInt 64 (imm.toInt * 4)

/-- `(pc & 0xF000_0000) | (target << 2)`. -/
def State.jumpTarget (s : State) (target : BitVec 26) : Word :=
  (s.pc &&& 0xF0000000#64) ||| (target.setWidth 64 <<< 2)

/-- The link value of JAL and JALR, `pc + 8`. -/
def State.linkValue (s : State) : Word := s.pc + 8

/-- Base register plus displacement: `(x[rs] + sext_64(imm)) mod 2^64`. -/
def State.effectiveAddress (s : State) (rs : RegIx) (imm : BitVec 16) : Word := s.readReg rs + simm imm

end Sys2Proof.Machine
end

