-- ==== Sys2Proof/Machine/Flags.lean ====
section
/-! DEFINITION. The block has no status flag, condition code or predicate (10_state.md R28), so no instruction computes
one. What stands here is the one condition an instruction tests: the branches compare two registers directly. -/

namespace Sys2Proof.Machine

/-- `x[rs] == x[rt]` on all 64 bits (R85, R101, R102). -/
def State.regsEqual (s : State) (rs rt : RegIx) : Bool := s.readReg rs == s.readReg rt

end Sys2Proof.Machine
end

