-- ==== Sys2Proof/Machine/Control.lean ====
section
/-! DEFINITION. Jumps, calls and branches (42_control.md). Each definition is the execute phase of its instruction: it
writes `nextPc`, which the next step fetches, with no delay slot (40_step.md R88, R91). -/

namespace Sys2Proof.Machine

/-- J (R99). -/
def execJ (target : BitVec 26) (s : State) : Host.Outcome State Fault Refusal :=
  .next (s.setNextPc (s.jumpTarget target))

/-- JAL (R100): the link goes to r31. -/
def execJal (target : BitVec 26) (s : State) : Host.Outcome State Fault Refusal :=
  .next ((s.writeReg 31#5 s.linkValue).setNextPc (s.jumpTarget target))

/-- BEQ (R101): when not taken, `nextPc` keeps its value. -/
def execBeq (rs rt : RegIx) (imm : BitVec 16) (s : State) : Host.Outcome State Fault Refusal :=
  .next (s.setNextPc (if s.regsEqual rs rt then s.branchTarget imm else s.nextPc))

/-- BNE (R102): when not taken, `nextPc` keeps its value. -/
def execBne (rs rt : RegIx) (imm : BitVec 16) (s : State) : Host.Outcome State Fault Refusal :=
  .next (s.setNextPc (if s.regsEqual rs rt then s.nextPc else s.branchTarget imm))

/-- JR (R103): all 64 bits, no alignment check. -/
def execJr (rs : RegIx) (s : State) : Host.Outcome State Fault Refusal :=
  .next (s.setNextPc (s.readReg rs))

/-- JALR (R104): the target is read before the link is written (R84). -/
def execJalr (rd rs : RegIx) (s : State) : Host.Outcome State Fault Refusal :=
  .next ((s.writeReg rd s.linkValue).setNextPc (s.readReg rs))

end Sys2Proof.Machine
end

