-- ==== Sys2Proof/Machine/Immediate.lean ====
section
/-! DEFINITION. Immediate arithmetic, immediate logical and LUI (41_immediate.md). Each definition is the execute
phase of its instruction. -/

namespace Sys2Proof.Machine

/-- `x[rt] <- (x[rs] + sext_64(imm)) mod 2^64`, without an overflow test (R85). -/
def addImmediate (rt rs : RegIx) (imm : BitVec 16) (s : State) : State :=
  s.writeReg rt (s.readReg rs + simm imm)

/-- ADDI (R94). -/
def execAddi (rt rs : RegIx) (imm : BitVec 16) (s : State) : Host.Outcome State Fault Refusal :=
  .next (addImmediate rt rs imm s)

/-- ADDIU (R95): the same as ADDI. -/
def execAddiu (rt rs : RegIx) (imm : BitVec 16) (s : State) : Host.Outcome State Fault Refusal :=
  .next (addImmediate rt rs imm s)

/-- ANDI (R96). -/
def execAndi (rt rs : RegIx) (imm : BitVec 16) (s : State) : Host.Outcome State Fault Refusal :=
  .next (s.writeReg rt (s.readReg rs &&& zimm imm))

/-- ORI (R97). -/
def execOri (rt rs : RegIx) (imm : BitVec 16) (s : State) : Host.Outcome State Fault Refusal :=
  .next (s.writeReg rt (s.readReg rs ||| zimm imm))

/-- LUI (R98): the result is not sign-extended. -/
def execLui (rt : RegIx) (imm : BitVec 16) (s : State) : Host.Outcome State Fault Refusal :=
  .next (s.writeReg rt (luimm imm))

end Sys2Proof.Machine
end

