-- ==== Sys2Proof/Machine/LoadStore.lean ====
section
/-! DEFINITION. Loads and stores (43_loadstore.md), the execute phase of each. -/

namespace Sys2Proof.Machine

/-- LW (R106): the word is zero-extended. -/
def execLw (rt : RegIx) (imm : BitVec 16) (rs : RegIx) (s : State) : Host.Outcome State Fault Refusal :=
  .next (s.writeReg rt ((s.read32 (s.effectiveAddress rs imm)).setWidth 64))

/-- SW (R107). -/
def execSw (rt : RegIx) (imm : BitVec 16) (rs : RegIx) (s : State) : Host.Outcome State Fault Refusal :=
  .next (s.write32 (s.effectiveAddress rs imm) (s.readReg rt))

end Sys2Proof.Machine
end

