-- ==== Sys2Proof/Machine/RegisterAlu.lean ====
section
/-! DEFINITION. Shifts, MFLO, multiply and the register ALU (44_register_alu.md), and the fallback no-op
(40_step.md R90): the execute phase of each. -/

namespace Sys2Proof.Machine

/-- `x[rd] <- (x[rs] + x[rt]) mod 2^64`, without an overflow test (R85). -/
def addRegisters (rd rs rt : RegIx) (s : State) : State := s.writeReg rd (s.readReg rs + s.readReg rt)

/-- `x[rd] <- (x[rs] - x[rt]) mod 2^64`, without an overflow test (R85). -/
def subRegisters (rd rs rt : RegIx) (s : State) : State := s.writeReg rd (s.readReg rs - s.readReg rt)

/-- The product of two full 64-bit registers modulo 2^64, bits 31:0 to `lo` and bits 63:32 to `hi` (R85, R112). -/
def multiplyUnsigned (rs rt : RegIx) (s : State) : State :=
  let p := s.readReg rs * s.readReg rt
  s.setHiLo ((p >>> 32) &&& 0xFFFFFFFF#64) (p &&& 0xFFFFFFFF#64)

/-- SLL (R109): a 64-bit shift. -/
def execSll (rd rt : RegIx) (sa : BitVec 5) (s : State) : Host.Outcome State Fault Refusal :=
  .next (s.writeReg rd (s.readReg rt <<< sa.toNat))

/-- SRL (R110): a logical 64-bit shift. -/
def execSrl (rd rt : RegIx) (sa : BitVec 5) (s : State) : Host.Outcome State Fault Refusal :=
  .next (s.writeReg rd (s.readReg rt >>> sa.toNat))

/-- MFLO (R111). -/
def execMflo (rd : RegIx) (s : State) : Host.Outcome State Fault Refusal :=
  .next (s.writeReg rd s.lo)

/-- MULTU, funct 0x18 (R112). -/
def execMultu (rs rt : RegIx) (s : State) : Host.Outcome State Fault Refusal :=
  .next (multiplyUnsigned rs rt s)

/-- MULTU, funct 0x19 (R113): decoded only when DECODE_FUNCT19 holds, and then the same as funct 0x18. -/
def execMultu19 (rs rt : RegIx) (s : State) : Host.Outcome State Fault Refusal :=
  .next (multiplyUnsigned rs rt s)

/-- ADD (R114). -/
def execAdd (rd rs rt : RegIx) (s : State) : Host.Outcome State Fault Refusal :=
  .next (addRegisters rd rs rt s)

/-- ADDU (R115): the same as ADD. -/
def execAddu (rd rs rt : RegIx) (s : State) : Host.Outcome State Fault Refusal :=
  .next (addRegisters rd rs rt s)

/-- SUB (R116). -/
def execSub (rd rs rt : RegIx) (s : State) : Host.Outcome State Fault Refusal :=
  .next (subRegisters rd rs rt s)

/-- SUBU (R117): the same as SUB. -/
def execSubu (rd rs rt : RegIx) (s : State) : Host.Outcome State Fault Refusal :=
  .next (subRegisters rd rs rt s)

/-- AND (R118). -/
def execAnd (rd rs rt : RegIx) (s : State) : Host.Outcome State Fault Refusal :=
  .next (s.writeReg rd (s.readReg rs &&& s.readReg rt))

/-- OR (R119). -/
def execOr (rd rs rt : RegIx) (s : State) : Host.Outcome State Fault Refusal :=
  .next (s.writeReg rd (s.readReg rs ||| s.readReg rt))

/-- UNRECOGNISED (R90): the execute phase does nothing. -/
def execUnrecognised (s : State) : Host.Outcome State Fault Refusal := .next s

end Sys2Proof.Machine
end

