-- ==== Sys2Proof/Machine/Cycle.lean ====
section
/-! DEFINITION. One `step()` under any configuration (40_step.md R80). It reads and writes `running` nowhere (R92). -/

namespace Sys2Proof.Machine

/-- The phases after the execute phase, taken when it answers a next state. -/
def commitOutcome (o : Host.Outcome State Fault Refusal) : Host.Outcome State Fault Refusal :=
  match o with
  | .next t => .next t.commit
  | .fault r => .fault r
  | .refused r => .refused r

/-- Fetch, decode, execute, re-pin, advance, count. Before the first `reset()` the step is refused (R135, D10). -/
def stepWith (c : Config) (s : State) : Host.Outcome State Fault Refusal :=
  if s.wasReset then commitOutcome (exec (decode c s.fetch) s) else .refused .stepBeforeReset

end Sys2Proof.Machine
end

