-- ==== Sys2Proof/Machine/Step.lean ====
section
/-! DEFINITION. The step of the machine under `Config.chosen`, and the host's placement of an instruction. -/

namespace Sys2Proof.Machine

/-- `step()` (R80). -/
def step (s : State) : Host.Outcome State Fault Refusal := stepWith Config.chosen s

/-- `s` with the instruction whose bits are `w` stored where the next step fetches (R139). -/
def State.withFetchWord (s : State) (nbits w : Nat) : State := s.placeFetch (tableWord nbits w)

end Sys2Proof.Machine
end

