-- ==== Sys2Proof/Machine/HostOps.lean ====
section
/-! DEFINITION. What the host may do to the block (70_reset_and_hazards.md R133 to R138; 20_memory.md R55 to R61).
Each operation is atomic (00_scope.md R9), so a run is a list of whole operations. -/

namespace Sys2Proof.Machine

/-! ## Construction and reset -/

/-- The block at construction (R35): no step is allowed yet (R135).
DESIGN CHOICE (log entry 6): the core fields, which have no stated value here, are those of `reset()` (D10). -/
def State.construct (c : Config) : State where
  x := Vector.replicate 32 0#64
  pc := c.resetVector
  nextPc := c.resetVector + 4
  hi := 0#64
  lo := 0#64
  cycles := 0
  running := false
  working := c.initWorking
  image := c.initImage
  imageByteOrder := .unknown
  wasReset := false

/-- `reset()` (R133): the buffers and the byte-order tag are left alone (R134). -/
def State.hostReset (c : Config) (s : State) : State :=
  { s with
    x := Vector.replicate 32 0#64
    pc := c.resetVector
    nextPc := c.resetVector + 4
    hi := 0#64
    lo := 0#64
    cycles := 0
    running := false
    wasReset := true }

/-! ## Image loading -/

/-- The kinds of `FormatError` (R55, R121). -/
inductive FormatError where
  | tooShort
  | badMagic
  | tooLarge
deriving DecidableEq, Repr

/-- The result of `loadImage` (R14). -/
inductive LoadResult where
  | ok (n : Nat)
  | err (e : FormatError)
deriving DecidableEq, Repr

/-- The byte order a magic byte names (R55, R59). -/
def magicOrder (b : Byte) : Option ByteOrder :=
  if b = 0x80#8 then some .nativeBig
  else if b = 0x37#8 then some .byteSwapped
  else if b = 0x40#8 then some .littleEndian
  else none

/-- Every whole 4-byte group reversed, a trailing partial group left as it is (R57). -/
def reverseGroups : List Byte → List Byte
  | b0 :: b1 :: b2 :: b3 :: rest => b3 :: b2 :: b1 :: b0 :: reverseGroups rest
  | rest => rest

/-- The little-endian word of four bytes (R58). -/
def littleEndianWord (b0 b1 b2 b3 : Byte) : Word32 := b3 ++ b2 ++ b1 ++ b0

/-- Every whole 4-byte group read as a little-endian word and written big-endian, a trailing partial group left as it
is (R58). -/
def reemitLittleEndian : List Byte → List Byte
  | b0 :: b1 :: b2 :: b3 :: rest => wordBytes (littleEndianWord b0 b1 b2 b3) ++ reemitLittleEndian rest
  | rest => rest

/-- The normalised byte sequence (R56 to R58). -/
def normalise (order : ByteOrder) (raw : List Byte) : List Byte :=
  match order with
  | .nativeBig => raw
  | .byteSwapped => reverseGroups raw
  | .littleEndian => reemitLittleEndian raw
  | .unknown => raw

/-- `loadImage` (R55 to R61): TooShort, BadMagic and TooLarge in that order, each without a change of state. -/
def State.loadImage (s : State) (raw : List Byte) : LoadResult × State :=
  match raw with
  | m :: _ :: _ :: _ :: _ =>
    match magicOrder m with
    | none => (.err .badMagic, s)
    | some order =>
      if raw.length > imageSize then (.err .tooLarge, s)
      else
        (.ok raw.length,
          { s with image := s.image.writeBytes 0 (normalise order raw), imageByteOrder := order })
  | _ => (.err .tooShort, s)

/-! ## The driver -/

/-- The entry address after a load of n bytes (R137). -/
def State.entryAddress (c : Config) (s : State) (n : Nat) : Word :=
  if n > 0x38 then (s.read32 0x10000034#64).setWidth 64 else c.defaultEntry.setWidth 64

/-- The entry handshake after a load of n bytes (R137). -/
def State.handshake (c : Config) (s : State) (n : Nat) : State :=
  { s with pc := s.entryAddress c n, nextPc := s.entryAddress c n + 4 }

/-- The driver's write of `running` (R27, R138). -/
def State.setRunning (s : State) (b : Bool) : State := { s with running := b }

/-- The host operations on a constructed block (R138). A test harness's whole state is no operation: it is the choice
of the state a run starts from (R139). -/
inductive HostOp where
  | reset
  | step
  | loadImage (raw : List Byte)
  /-- `n` is the size the last successful load answered. -/
  | handshake (n : Nat)
  | readState
  | setRunning (b : Bool)
deriving DecidableEq, Repr

/-- What the host gets back (R138). -/
inductive HostReply where
  | nothing
  | loaded (r : LoadResult)
  | shown (s : State)
deriving DecidableEq, Repr

/-- One host operation, whole (R9): its reply and the state it leaves. -/
def hostOp (c : Config) (op : HostOp) (s : State) : Host.Outcome (HostReply × State) Fault Refusal :=
  match op with
  | .reset => .next (.nothing, s.hostReset c)
  | .step =>
    match stepWith c s with
    | .next t => .next (.nothing, t)
    | .fault r => .fault r
    | .refused r => .refused r
  | .loadImage raw => .next (.loaded (s.loadImage raw).1, (s.loadImage raw).2)
  | .handshake n => .next (.nothing, s.handshake c n)
  | .readState => .next (.shown s, s)
  | .setRunning b => .next (.nothing, s.setRunning b)

/-- A run: host operations one after another (R9, R130, R140). -/
def runHost (c : Config) : List HostOp → State → Host.Outcome State Fault Refusal
  | [], s => .next s
  | op :: ops, s =>
    match hostOp c op s with
    | .next p => runHost c ops p.2
    | .fault r => .fault r
    | .refused r => .refused r

end Sys2Proof.Machine
end

