-- ==== Sys2Proof/Safety.lean ====
section
/-! DEFINITION. The terms claims are stated in: the spec's own notation as functions of numbers (00_scope.md R11, R12;
30_encoding.md R71), its address map (20_memory.md R51) and opcode table, what an instruction leaves unchanged, the
invariants of 10_state.md R36, and the runs of 70_reset_and_hazards.md R140. They are written from the spec's formulas,
apart from the machine's definitions, so that a claim holds one against the other. -/

namespace Sys2Proof.Safety

open Sys2Proof.Machine

/-! ## Notation (R12) -/

/-- `sext_64` of a 16-bit value, as a number below 2^64. -/
def sext64 (v : Nat) : Nat := if v < 0x8000 then v else v + 2 ^ 64 - 2 ^ 16

/-- `simm_int` of a 16-bit value, as a signed integer. -/
def simmInt (v : Nat) : Int := if v < 0x8000 then (v : Int) else (v : Int) - 65536

/-- `v[hi:lo]`. -/
def bits (v hi lo : Nat) : Nat := v / 2 ^ lo % 2 ^ (hi - lo + 1)

/-! ## Memory (R44, R51) -/

/-- `BE32(B, o)` (R44). -/
def be32 (m : Memory) (o : Nat) : Nat :=
  (m.readByte o).toNat * 2 ^ 24 + (m.readByte (o + 1)).toNat * 2 ^ 16 + (m.readByte (o + 2)).toNat * 2 ^ 8
    + (m.readByte (o + 3)).toNat

/-- The address map of R51, rows that reach `working`: the offset of an access that starts at a 32-bit address. -/
def workingOffset (a : Nat) : Option Nat :=
  if a ≤ 0x007FFFFC then some a
  else if 0x80000000 ≤ a ∧ a ≤ 0x807FFFFC then some (a - 0x80000000)
  else if 0xA0000000 ≤ a ∧ a ≤ 0xA07FFFFC then some (a - 0xA0000000)
  else none

/-- The address map of R51, the row that reaches `image`. -/
def imageOffset (a : Nat) : Option Nat :=
  if 0x10000000 ≤ a ∧ a ≤ 0x13FFFFFC then some (a - 0x10000000) else none

/-- What an access that starts at a 32-bit address reads (R51). -/
def mapRead (s : State) (a : Nat) : Nat :=
  match imageOffset a with
  | some o => be32 s.image o
  | none =>
    match workingOffset a with
    | some o => be32 s.working o
    | none => 0

/-- The byte of `working` at an offset after a 32-bit value is stored at a 32-bit address (R46, R51). -/
def mapWrite (s : State) (a v : Nat) (o : Nat) : Nat :=
  match workingOffset a with
  | some p => if p ≤ o ∧ o < p + 4 then bits v (31 - 8 * (o - p)) (24 - 8 * (o - p)) else (s.working.readByte o).toNat
  | none => (s.working.readByte o).toNat

/-- Byte `o` of the normalised image (R56, R57): in place, or mirrored within its whole 4-byte group. -/
def mirroredIndex (n o : Nat) : Nat := if o < 4 * (n / 4) then 4 * (o / 4) + (3 - o % 4) else o

/-! ## What an instruction's execute phase changes -/

/-- What no execute phase changes (R22, R26, R27, R31, R32): `pc`, `cycles`, `running`, `image` and its tag. -/
def KeepsFrame (s t : State) : Prop :=
  t.pc = s.pc ∧ t.cycles = s.cycles ∧ t.running = s.running ∧ (∀ o, t.image.readByte o = s.image.readByte o) ∧
    t.imageByteOrder = s.imageByteOrder ∧ t.wasReset = s.wasReset

/-- Every byte of `working` reads as before. -/
def KeepsWorking (s t : State) : Prop := ∀ o, t.working.readByte o = s.working.readByte o

/-- `hi` and `lo` are as before. -/
def KeepsHiLo (s t : State) : Prop := t.hi = s.hi ∧ t.lo = s.lo

/-- Every general register is as before. -/
def KeepsRegisters (s t : State) : Prop := ∀ r, t.readReg r = s.readReg r

/-- `x[rd] <- v` (R86): register rd holds v unless rd is 0, and every other register, r0 among them, is as before. -/
def WritesRegister (rd : RegIx) (v : Nat) (s t : State) : Prop :=
  ∀ r, (t.readReg r).toNat = if r = rd ∧ rd ≠ 0#5 then v else (s.readReg r).toNat

/-- The whole effect is a register write. -/
def OnlyWritesRegister (rd : RegIx) (v : Nat) (s t : State) : Prop :=
  WritesRegister rd v s t ∧ t.nextPc = s.nextPc ∧ KeepsHiLo s t ∧ KeepsWorking s t ∧ KeepsFrame s t

/-- The whole effect is on `nextPc`. -/
def OnlySetsNextPc (target : Int) (s t : State) : Prop :=
  (t.nextPc.toNat : Int) = target ∧ KeepsRegisters s t ∧ KeepsHiLo s t ∧ KeepsWorking s t ∧ KeepsFrame s t

/-- The whole effect is a link in register rd and a jump. -/
def OnlyLinksAndJumps (rd : RegIx) (link target : Nat) (s t : State) : Prop :=
  WritesRegister rd link s t ∧ t.nextPc.toNat = target ∧ KeepsHiLo s t ∧ KeepsWorking s t ∧ KeepsFrame s t

/-- `{pc[31:28], target, 00}` (R71, R99). -/
def jumpTargetOf (s : State) (target : BitVec 26) : Nat := bits s.pc.toNat 31 28 * 2 ^ 28 + target.toNat * 4

/-- `(pc + 4 + simm_int(imm) * 4) mod 2^64` (R71, R101). -/
def branchTargetOf (s : State) (imm : BitVec 16) : Int := ((s.pc.toNat : Int) + 4 + simmInt imm.toNat * 4) % 2 ^ 64

/-- `(x[rs] + sext_64(imm)) mod 2^64` (R106, R108). -/
def addressOf (s : State) (rs : RegIx) (imm : BitVec 16) : Nat := ((s.readReg rs).toNat + sext64 imm.toNat) % 2 ^ 64

/-- The six control-transfer instructions (R99 to R104). -/
def isControlTransfer : Instr → Bool
  | .j _ | .jal _ | .beq _ _ _ | .bne _ _ _ | .jr _ | .jalr _ _ => true
  | .addi _ _ _ | .addiu _ _ _ | .andi _ _ _ | .ori _ _ _ | .lui _ _ | .lw _ _ _ | .sw _ _ _ => false
  | .sll _ _ _ | .srl _ _ _ | .mflo _ | .multu _ _ | .multu19 _ _ => false
  | .add _ _ _ | .addu _ _ _ | .sub _ _ _ | .subu _ _ _ | .and _ _ _ | .or _ _ _ | .unrecognised _ => false

/-! ## Invariants and runs -/

/-- Invariants 1 to 3 of R36, and that both buffers are in their canonical form. -/
structure Inv (s : State) : Prop where
  regZero : s.readReg 0#5 = 0#64
  nextPc : s.nextPc = s.pc + 4
  hiBelow : s.hi.toNat < 2 ^ 32
  loBelow : s.lo.toNat < 2 ^ 32
  working : Memory.wf workingSize s.working = true
  image : Memory.wf imageSize s.image = true

/-- A launch state (R139): built by hand, with `x[0] = 0`; `reset()` counts as done, and the buffers are canonical. -/
structure Launch (s : State) : Prop where
  regZero : s.readReg 0#5 = 0#64
  wasReset : s.wasReset = true
  working : Memory.wf workingSize s.working = true
  image : Memory.wf imageSize s.image = true

/-- The fields R93 names as all that a step's result depends on agree. -/
def AgreeOnRunState (s t : State) : Prop :=
  t.x = s.x ∧ t.pc = s.pc ∧ t.nextPc = s.nextPc ∧ t.lo = s.lo ∧ t.cycles = s.cycles ∧ t.working = s.working ∧
    t.image = s.image ∧ t.wasReset = s.wasReset

/-- The number of `step` operations since the last `reset` of a run, from a count at its start (R36, R128). -/
def stepsSinceReset (n : Nat) : List HostOp → Nat
  | [] => n
  | .reset :: ops => stepsSinceReset 0 ops
  | .step :: ops => stepsSinceReset (n + 1) ops
  | .loadImage _ :: ops => stepsSinceReset n ops
  | .handshake _ :: ops => stepsSinceReset n ops
  | .readState :: ops => stepsSinceReset n ops
  | .setRunning _ :: ops => stepsSinceReset n ops

/-- The word fetched is a one-instruction loop (R140): `J` to its own address, or `BEQ r0, r0, -1`. -/
def AtSelfLoop (s : State) : Prop :=
  (s.pc.toNat < 2 ^ 32 ∧ s.pc.toNat % 4 = 0 ∧ decode Config.chosen s.fetch = .j (BitVec.ofNat 26 (s.pc.toNat / 4))) ∨
    decode Config.chosen s.fetch = .beq 0#5 0#5 0xFFFF#16

/-- R140 (b): the run first arrives at the stop address after k steps, in state t. -/
def StopsAfter (stop : Word) (k : Nat) (s t : State) : Prop :=
  Host.Core.run core k s = .next t ∧ t.pc = stop ∧ ∀ j, j < k → ∀ u, Host.Core.run core j s = .next u → u.pc ≠ stop

/-! ## The opcode table -/

/-- A row of spec/opcode_table.json: a word belongs to it when `w & mask = pattern`. -/
structure OpcodeRow where
  mnemonic : String
  pattern : Word32
  mask : Word32
deriving DecidableEq, Repr

/-- The rows of the I and J formats. -/
def opcodeRowsPrimary : List OpcodeRow := [
  ⟨"J", 0x08000000#32, 0xFC000000#32⟩,
  ⟨"JAL", 0x0C000000#32, 0xFC000000#32⟩,
  ⟨"BEQ", 0x10000000#32, 0xFC000000#32⟩,
  ⟨"BNE", 0x14000000#32, 0xFC000000#32⟩,
  ⟨"ADDI", 0x20000000#32, 0xFC000000#32⟩,
  ⟨"ADDIU", 0x24000000#32, 0xFC000000#32⟩,
  ⟨"ANDI", 0x30000000#32, 0xFC000000#32⟩,
  ⟨"ORI", 0x34000000#32, 0xFC000000#32⟩,
  ⟨"LUI", 0x3C000000#32, 0xFC000000#32⟩,
  ⟨"LW", 0x8C000000#32, 0xFC000000#32⟩,
  ⟨"SW", 0xAC000000#32, 0xFC000000#32⟩]

/-- The rows of the R format, MULTU_19 apart. -/
def opcodeRowsSpecial : List OpcodeRow := [
  ⟨"SLL", 0x00000000#32, 0xFC00003F#32⟩,
  ⟨"SRL", 0x00000002#32, 0xFC00003F#32⟩,
  ⟨"JR", 0x00000008#32, 0xFC00003F#32⟩,
  ⟨"JALR", 0x00000009#32, 0xFC00003F#32⟩,
  ⟨"MFLO", 0x00000012#32, 0xFC00003F#32⟩,
  ⟨"MULTU", 0x00000018#32, 0xFC00003F#32⟩,
  ⟨"ADD", 0x00000020#32, 0xFC00003F#32⟩,
  ⟨"ADDU", 0x00000021#32, 0xFC00003F#32⟩,
  ⟨"SUB", 0x00000022#32, 0xFC00003F#32⟩,
  ⟨"SUBU", 0x00000023#32, 0xFC00003F#32⟩,
  ⟨"AND", 0x00000024#32, 0xFC00003F#32⟩,
  ⟨"OR", 0x00000025#32, 0xFC00003F#32⟩]

/-- The rows that match under a configuration, the fallback row apart. -/
def opcodeRows (c : Config) : List OpcodeRow :=
  opcodeRowsPrimary ++ opcodeRowsSpecial ++
    (if c.decodeFunct19 then [⟨"MULTU_19", 0x00000019#32, 0xFC00003F#32⟩] else [])

/-- The bits of its word an instruction uses: every field but those R75 lists as ignored. -/
def usedBits : Instr → Word32
  | .j _ | .jal _ => 0xFFFFFFFF#32
  | .beq _ _ _ | .bne _ _ _ | .addi _ _ _ | .addiu _ _ _ | .andi _ _ _ | .ori _ _ _ => 0xFFFFFFFF#32
  | .lw _ _ _ | .sw _ _ _ => 0xFFFFFFFF#32
  | .lui _ _ => 0xFC1FFFFF#32
  | .sll _ _ _ | .srl _ _ _ => 0xFC1FFFFF#32
  | .jr _ => 0xFFE0003F#32
  | .jalr _ _ => 0xFFE0F83F#32
  | .mflo _ => 0xFC00F83F#32
  | .multu _ _ | .multu19 _ _ => 0xFFFF003F#32
  | .add _ _ _ | .addu _ _ _ | .sub _ _ _ | .subu _ _ _ | .and _ _ _ | .or _ _ _ => 0xFFFFF83F#32
  | .unrecognised _ => 0xFFFFFFFF#32

end Sys2Proof.Safety
end

