-- ==== Sys2Proof/Certificates/Slice0/Obligations.lean ====
section
/-! DEFINITION. The statements for the provers, from the numbered rules of spec/. A rule the spec tags as its own
decision (D<n>), as derived, or as general knowledge is cited by its section, and the statement is marked derived in
OBLIGATIONS.json. -/

open Sys2Proof Sys2Proof.Machine Sys2Proof.Safety

/-! ## The step -/

/-- R80, R87, R89: a step fetches, decodes, runs `exec` of the decoded instruction, and then re-pins r0, advances the two
program counters and counts. What `step` adds around `exec` is said field by field. -/
def Obligations.StepRunsTheDecodedInstruction : Prop :=
  ∀ (s t : State) (i : Instr), s.wasReset = true → decode Config.chosen s.fetch = i → exec i s = .next t →
    ∃ u, step s = .next u ∧ u.readReg 0#5 = 0#64 ∧ (∀ r, r ≠ 0#5 → u.readReg r = t.readReg r) ∧
      u.pc = t.nextPc ∧ u.nextPc = u.pc + 4 ∧ u.cycles = t.cycles + 1 ∧ u.hi = t.hi ∧ u.lo = t.lo ∧
      u.running = t.running ∧ u.working = t.working ∧ u.image = t.image ∧ u.imageByteOrder = t.imageByteOrder ∧
      u.wasReset = true

/-- R80, R120: once the block has been reset, every step under every configuration answers a next state; no word, no
address and no state stops it. -/
def Obligations.StepAlwaysCompletes : Prop :=
  ∀ (c : Config) (s : State), s.wasReset = true → ∃ t, stepWith c s = .next t ∧ t.wasReset = true

/-- R139: from a hand-built launch state a step completes, and its result is again a launch state. -/
def Obligations.LaunchStatesStepToLaunchStates : Prop :=
  ∀ (c : Config) (s : State), Launch s → ∃ t, stepWith c s = .next t ∧ Launch t

/-- R135 (decision D10; log entry 6): between construction and the first `reset()` a step is refused by name, and
`reset()` enables it. -/
def Obligations.StepBeforeResetIsRefused : Prop :=
  ∀ (c : Config) (s : State), stepWith c (State.construct c) = .refused .stepBeforeReset ∧
    (s.wasReset = false → stepWith c s = .refused .stepBeforeReset) ∧
    ∃ t, stepWith c ((State.construct c).hostReset c) = .next t

/-- R87, R89: after every step register 0 reads 0, whatever it held before, and `cycles` has grown by exactly 1,
whatever the word. -/
def Obligations.EveryStepRepinsAndCounts : Prop :=
  ∀ (c : Config) (s t : State), stepWith c s = .next t → t.readReg 0#5 = 0#64 ∧ t.cycles = s.cycles + 1

/-- R92 (decision D21): a step gives the same result whatever `running` holds, and leaves the flag as it was. -/
def Obligations.StepIgnoresTheRunFlag : Prop :=
  ∀ (c : Config) (s t : State) (b : Bool), stepWith c s = .next t →
    t.running = s.running ∧ stepWith c (s.setRunning b) = .next (t.setRunning b)

/-- R93: two states that agree on the fields a step's result depends on step to states that agree on them; `hi`,
`running` and the byte-order tag do not matter. -/
def Obligations.StepDependsOnlyOnTheRunState : Prop :=
  ∀ (c : Config) (s s' t : State), AgreeOnRunState s s' → stepWith c s = .next t →
    ∃ t', stepWith c s' = .next t' ∧ AgreeOnRunState t t'

/-! ## Invariants -/

/-- R36: every step from every state that meets the invariant gives a state that meets it: r0 is 0, `nextPc` is
`pc + 4`, `hi` and `lo` are below 2^32, and both buffers keep their canonical form. The second part says it of the
step under every configuration. -/
def Obligations.EveryStepKeepsTheInvariant : Prop :=
  (∀ s t : State, Inv s → step s = .next t → Inv t) ∧
    ∀ (c : Config) (s t : State), Inv s → stepWith c s = .next t → Inv t

/-- R34, R36: the state after reset meets the invariant, with the values the spec gives. `pc` and the empty buffers
are the model's choice (log entries 1 and 3); `pc` lies where D4 wants it. That the tag is Unknown is a choice too, not a
value of R34, by which reset leaves the tag alone: it is the tag at construction by decision D16 (R35; log entry 5). -/
def Obligations.ResetStateMeetsTheInvariant : Prop :=
  Inv State.reset ∧ (∀ r, State.reset.readReg r = 0#64) ∧ State.reset.hi = 0#64 ∧ State.reset.lo = 0#64 ∧
    State.reset.cycles = 0 ∧ State.reset.running = false ∧ State.reset.imageByteOrder = .unknown ∧
    State.reset.pc = Config.chosen.resetVector ∧ Config.chosen.ResetVectorInSegment ∧
    (State.construct Config.chosen).hostReset Config.chosen = State.reset

/-- R36, R137 (decision D6), R138: any run of host operations (reset, step, load, handshake, read, run flag) from a state
that meets the invariant ends in one that does. The second part, that construction over canonical buffers gives such a
state, is the model's choice (log entry 6): R35 and R135 give the core fields no value before the first reset, and the
model takes decision D10's launch state, the reset values. -/
def Obligations.EveryHostRunKeepsTheInvariant : Prop :=
  (∀ (c : Config) (ops : List HostOp) (s t : State), Inv s → runHost c ops s = .next t → Inv t) ∧
    ∀ c : Config, Memory.wf workingSize c.initWorking = true → Memory.wf imageSize c.initImage = true →
      Inv (State.construct c)

/-- R36, R128: over any run of host operations, `cycles` is the number of steps since the last reset. -/
def Obligations.CyclesCountStepsSinceReset : Prop :=
  ∀ (c : Config) (ops : List HostOp) (s t : State), runHost c ops s = .next t →
    t.cycles = stepsSinceReset s.cycles ops

/-! ## Rules of the whole machine -/

/-- R31, R32, R61: of all host operations only a successful load changes `image` or the byte-order tag. -/
def Obligations.OnlyALoadChangesTheImage : Prop :=
  ∀ (c : Config) (op : HostOp) (s : State) (p : HostReply × State), hostOp c op s = .next p →
    p.2.image ≠ s.image ∨ p.2.imageByteOrder ≠ s.imageByteOrder →
    ∃ raw, op = .loadImage raw ∧ p.1 = .loaded (.ok raw.length)

/-- R30: of all host operations only a step that executes SW changes `working`. -/
def Obligations.OnlyStoreWordChangesWorking : Prop :=
  ∀ (c : Config) (op : HostOp) (s : State) (p : HostReply × State), hostOp c op s = .next p →
    p.2.working ≠ s.working → op = .step ∧ ∃ rt imm rs, decode c s.fetch = .sw rt imm rs

/-- R37, R27, R138: reading the state changes nothing and shows all of it; the driver's write of `running` changes that
flag and nothing else. -/
def Obligations.DriverReadsAndSetsTheRunFlag : Prop :=
  ∀ (c : Config) (s : State) (b : Bool), hostOp c .readState s = .next (.shown s, s) ∧
    ∃ t, hostOp c (.setRunning b) s = .next (.nothing, t) ∧ t.running = b ∧ t.x = s.x ∧ t.pc = s.pc ∧
      t.nextPc = s.nextPc ∧ t.hi = s.hi ∧ t.lo = s.lo ∧ t.cycles = s.cycles ∧ t.working = s.working ∧
      t.image = s.image ∧ t.imageByteOrder = s.imageByteOrder ∧ t.wasReset = s.wasReset

/-- R25: a step changes `hi` or `lo` only by executing MULTU, in either encoding. -/
def Obligations.OnlyMultiplyChangesHiLo : Prop :=
  ∀ (c : Config) (s t : State), stepWith c s = .next t → t.hi ≠ s.hi ∨ t.lo ≠ s.lo →
    ∃ rs rt, decode c s.fetch = .multu rs rt ∨ decode c s.fetch = .multu19 rs rt

/-- R83, R124: a step whose instruction is none of the six control transfers continues at the `nextPc` it began with. -/
def Obligations.OnlyControlTransfersRedirect : Prop :=
  ∀ (c : Config) (s t : State), stepWith c s = .next t → isControlTransfer (decode c s.fetch) = false →
    t.pc = s.nextPc

/-- R66, R141: a store to the address the next step fetches is the word that step fetches, with no fence or delay. -/
def Obligations.StoreIsSeenByTheNextFetch : Prop :=
  ∀ (c : Config) (s : State) (rt rs : RegIx) (imm : BitVec 16) (o : Nat), s.wasReset = true →
    decode c s.fetch = .sw rt imm rs → workingOffset (addressOf s rs imm % 2 ^ 32) = some o →
    workingOffset (s.nextPc.toNat % 2 ^ 32) = some o →
    ∃ t, stepWith c s = .next t ∧ t.fetch.toNat = (s.readReg rt).toNat % 2 ^ 32

/-- R45, R53, R79, R105: where nothing backs `pc`, the word fetched is 0, the no-op SLL r0, r0, 0, and the step only
advances, counts and re-pins r0. -/
def Obligations.UnbackedFetchRunsTheNoOp : Prop :=
  ∀ (c : Config) (s : State), s.wasReset = true → imageOffset (s.pc.toNat % 2 ^ 32) = none →
    workingOffset (s.pc.toNat % 2 ^ 32) = none →
    decode c s.fetch = .sll 0#5 0#5 0#5 ∧ ∃ t, stepWith c s = .next t ∧ t.pc = s.nextPc ∧ t.nextPc = s.nextPc + 4 ∧
      t.cycles = s.cycles + 1 ∧ t.readReg 0#5 = 0#64 ∧ (∀ r, r ≠ 0#5 → t.readReg r = s.readReg r) ∧ KeepsHiLo s t ∧
      t.running = s.running ∧ t.working = s.working ∧ t.image = s.image ∧ t.imageByteOrder = s.imageByteOrder

/-- R139 (decision D22): "execute word W" from any state: the word placed is the word the next step fetches. Where `pc`
is backed, only the four bytes at it change. Where it is not, the model moves `pc` to 0x8000_1000 and places the word
there (the model's choice, log entry 7). -/
def Obligations.PlacedWordIsFetched : Prop :=
  ∀ (s t : State) (w : Word32), s.withFetchWord 32 w.toNat = t →
    t.fetch = w ∧ t.wasReset = true ∧ t.x = s.x ∧ t.hi = s.hi ∧ t.lo = s.lo ∧ t.cycles = s.cycles ∧
    t.running = s.running ∧ t.imageByteOrder = s.imageByteOrder ∧
    (∀ p, imageOffset (s.pc.toNat % 2 ^ 32) = some p → t.pc = s.pc ∧ t.nextPc = s.nextPc ∧ t.working = s.working ∧
      ∀ o, o < p ∨ p + 4 ≤ o → t.image.readByte o = s.image.readByte o) ∧
    (∀ p, workingOffset (s.pc.toNat % 2 ^ 32) = some p → t.pc = s.pc ∧ t.nextPc = s.nextPc ∧ t.image = s.image ∧
      ∀ o, o < p ∨ p + 4 ≤ o → t.working.readByte o = s.working.readByte o) ∧
    (imageOffset (s.pc.toNat % 2 ^ 32) = none → workingOffset (s.pc.toNat % 2 ^ 32) = none →
      t.pc = 0x80001000#64 ∧ t.nextPc = 0x80001004#64 ∧ t.image = s.image ∧
      ∀ o, o < 0x1000 ∨ 0x1004 ≤ o → t.working.readByte o = s.working.readByte o)

/-- R140 (b) (decision D20): once a run has arrived at a stop address that holds a one-instruction loop, further steps
change nothing but `cycles`. -/
def Obligations.RunPastTheStopOnlyCounts : Prop :=
  ∀ (stop : Word) (k j : Nat) (s t : State), StopsAfter stop k s t → Inv t → t.wasReset = true → AtSelfLoop t →
    Host.Core.run core (k + j) s = .next { t with cycles := t.cycles + j }

/-! ## Registers -/

/-- R13, R86: a write to register 0 does nothing at all; a write to any other register is read back, and no other
register changes. -/
def Obligations.RegisterZeroDiscardsWrites : Prop :=
  ∀ (s : State) (i r : RegIx) (v : Word), s.writeReg 0#5 v = s ∧
    (s.writeReg i v).readReg r = if r = i ∧ i ≠ 0#5 then v else s.readReg r

/-! ## Memory -/

/-- R40: the kernel segments are masked to 29 bits, both ends of the range included; every other address passes through. -/
def Obligations.TranslateMasksTheKernelSegments : Prop :=
  ∀ a : Word32, (Machine.translate a).toNat =
    if 0x80000000 ≤ a.toNat ∧ a.toNat ≤ 0xBFFFFFFF then a.toNat % 2 ^ 29 else a.toNat

/-- R41: translation is idempotent, never answers an address of the kernel segments, and gives every offset below 2^29
its three virtual names. -/
def Obligations.TranslateIsIdempotentAndManyToOne : Prop :=
  (∀ a : Word32, Machine.translate (Machine.translate a) = Machine.translate a ∧
    ((Machine.translate a).toNat < 0x80000000 ∨ 0xC0000000 ≤ (Machine.translate a).toNat)) ∧
    ∀ p : Word32, p.toNat < 2 ^ 29 →
      Machine.translate p = p ∧ Machine.translate (p + 0x80000000#32) = p ∧ Machine.translate (p + 0xA0000000#32) = p

/-- R45, R47, R48, R51: `read32` at every 64-bit address answers the four big-endian bytes the address map gives, at any
byte offset, and 0 where nothing backs the access. -/
def Obligations.ReadFollowsTheAddressMap : Prop :=
  ∀ (s : State) (addr : Word), (s.read32 addr).toNat = mapRead s (addr.toNat % 2 ^ 32)

/-- R46, R48, R50, R51: `write32` at every 64-bit address sets the four big-endian bytes of `working` the address map
gives and no other byte, or is discarded whole; nothing else changes. -/
def Obligations.WriteFollowsTheAddressMap : Prop :=
  ∀ (s : State) (addr v : Word),
    (∀ o, ((s.write32 addr v).working.readByte o).toNat = mapWrite s (addr.toNat % 2 ^ 32) (v.toNat % 2 ^ 32) o) ∧
    KeepsRegisters s (s.write32 addr v) ∧ (s.write32 addr v).nextPc = s.nextPc ∧ KeepsHiLo s (s.write32 addr v) ∧
    KeepsFrame s (s.write32 addr v) ∧
    (workingOffset (addr.toNat % 2 ^ 32) = none → s.write32 addr v = s)

/-- R52, R63: a word written through one of the three windows onto `working` is read back through each of them, and a
word of `working` that does not overlap it is read as before. -/
def Obligations.StoresAreReadThroughEveryAlias : Prop :=
  ∀ (s : State) (addr addr' v : Word) (o o' : Nat), workingOffset (addr.toNat % 2 ^ 32) = some o →
    workingOffset (addr'.toNat % 2 ^ 32) = some o' →
    (o' = o → ((s.write32 addr v).read32 addr').toNat = v.toNat % 2 ^ 32) ∧
    (o + 4 ≤ o' ∨ o' + 4 ≤ o → (s.write32 addr v).read32 addr' = s.read32 addr')

/-- R52: the kernel-segment names of the image window's numbers do not reach `image`: they read 0 and discard writes. -/
def Obligations.KernelSegmentsDoNotReachTheImage : Prop :=
  ∀ (s : State) (addr v : Word),
    (0x90000000 ≤ addr.toNat % 2 ^ 32 ∧ addr.toNat % 2 ^ 32 ≤ 0x93FFFFFF) ∨
      (0xB0000000 ≤ addr.toNat % 2 ^ 32 ∧ addr.toNat % 2 ^ 32 ≤ 0xB3FFFFFF) →
    s.read32 addr = 0#32 ∧ s.write32 addr v = s

/-! ## Host operations -/

/-- R133, R134: `reset()` under any RESET_VECTOR (decision D4 makes it an argument). -/
def Obligations.ResetClearsTheCoreAndKeepsMemory : Prop :=
  ∀ (c : Config) (s : State), (∀ r, (s.hostReset c).readReg r = 0#64) ∧ (s.hostReset c).pc = c.resetVector ∧
    (s.hostReset c).nextPc = c.resetVector + 4 ∧ (s.hostReset c).hi = 0#64 ∧ (s.hostReset c).lo = 0#64 ∧
    (s.hostReset c).cycles = 0 ∧ (s.hostReset c).running = false ∧ (s.hostReset c).working = s.working ∧
    (s.hostReset c).image = s.image ∧ (s.hostReset c).imageByteOrder = s.imageByteOrder

/-- R55, R60 (the order is decision D15): the three failures of `loadImage`, in their order, each without a change of
state. -/
def Obligations.LoadImageRejectsInOrder : Prop :=
  ∀ (s : State) (raw : List Byte),
    (raw.length < 4 → s.loadImage raw = (.err .tooShort, s)) ∧
    (4 ≤ raw.length → raw[0]? ≠ some 0x80#8 → raw[0]? ≠ some 0x37#8 → raw[0]? ≠ some 0x40#8 →
      s.loadImage raw = (.err .badMagic, s)) ∧
    (4 ≤ raw.length → raw[0]? = some 0x80#8 ∨ raw[0]? = some 0x37#8 ∨ raw[0]? = some 0x40#8 →
      imageSize < raw.length → s.loadImage raw = (.err .tooLarge, s))

/-- R59, R61: a load that passes the three checks answers `Ok(n)`, copies the normalised bytes to the front of `image`,
keeps every byte behind them, sets the tag from the untransformed first byte, and changes nothing else. -/
def Obligations.LoadImageCopiesTheNormalisedBytes : Prop :=
  ∀ (s : State) (raw : List Byte) (order : ByteOrder), 4 ≤ raw.length → raw.length ≤ imageSize →
    (raw[0]? = some 0x80#8 ∧ order = .nativeBig) ∨ (raw[0]? = some 0x37#8 ∧ order = .byteSwapped) ∨
      (raw[0]? = some 0x40#8 ∧ order = .littleEndian) →
    ∃ t, s.loadImage raw = (.ok raw.length, t) ∧
      (∀ o, t.image.readByte o =
        if o < raw.length then (normalise order raw)[o]?.getD unlistedByte else s.image.readByte o) ∧
      t.imageByteOrder = order ∧ t.x = s.x ∧ t.pc = s.pc ∧ t.nextPc = s.nextPc ∧ t.hi = s.hi ∧ t.lo = s.lo ∧
      t.cycles = s.cycles ∧ t.running = s.running ∧ t.working = s.working ∧ t.wasReset = s.wasReset

/-- R56, R57: magic 0x80 copies verbatim; magic 0x37 reverses every whole 4-byte group and leaves a trailing partial
group in place. -/
def Obligations.NormaliseVerbatimOrSwapped : Prop :=
  ∀ raw : List Byte, normalise .nativeBig raw = raw ∧ (normalise .byteSwapped raw).length = raw.length ∧
    ∀ o, o < raw.length → (normalise .byteSwapped raw)[o]? = raw[mirroredIndex raw.length o]?

/-- R58: magic 0x40 re-emits each whole group, a little-endian word, big-endian; byte for byte this is the permutation
of magic 0x37. -/
def Obligations.LittleEndianIsTheSamePermutation : Prop :=
  (∀ raw : List Byte, normalise .littleEndian raw = normalise .byteSwapped raw) ∧
    ∀ b0 b1 b2 b3 : Byte, (littleEndianWord b0 b1 b2 b3).toNat =
      b0.toNat + b1.toNat * 2 ^ 8 + b2.toNat * 2 ^ 16 + b3.toNat * 2 ^ 24

/-- R62: loading a big-endian image of whole groups, and loading the same program with each group reversed under the
magic 0x40, leave identical `image` contents. -/
def Obligations.ImageFormatsRoundTrip : Prop :=
  ∀ (s : State) (big little : List Byte), 4 ≤ big.length → big.length ≤ imageSize → big.length % 4 = 0 →
    big[0]? = some 0x80#8 → big[3]? = some 0x40#8 → little.length = big.length →
    (∀ o, o < big.length → little[o]? = big[mirroredIndex big.length o]?) →
    (s.loadImage big).1 = .ok big.length ∧ (s.loadImage little).1 = .ok big.length ∧
      (s.loadImage big).2.image = (s.loadImage little).2.image

/-- R137 (decision D6 gives `nextPc`): the entry handshake takes the big-endian word at image offset 0x34 of an image
larger than 0x38 bytes, and DEFAULT_ENTRY otherwise, and writes nothing but `pc` and `nextPc`. -/
def Obligations.HandshakeSeedsTheProgramCounters : Prop :=
  ∀ (c : Config) (s : State) (n : Nat),
    (s.handshake c n).pc.toNat = (if n > 0x38 then be32 s.image 0x34 else c.defaultEntry.toNat) ∧
    (s.handshake c n).nextPc = (s.handshake c n).pc + 4 ∧
    (s.handshake c n).x = s.x ∧ (s.handshake c n).hi = s.hi ∧ (s.handshake c n).lo = s.lo ∧
    (s.handshake c n).cycles = s.cycles ∧ (s.handshake c n).running = s.running ∧
    (s.handshake c n).working = s.working ∧ (s.handshake c n).image = s.image ∧
    (s.handshake c n).imageByteOrder = s.imageByteOrder ∧ (s.handshake c n).wasReset = s.wasReset

/-- R136, R61, R134: `reset()` and `loadImage` touch disjoint state, so their order does not matter, neither to the
state nor to the answer of the load. -/
def Obligations.ResetAndLoadCommute : Prop :=
  ∀ (c : Config) (s : State) (raw : List Byte),
    (s.loadImage raw).2.hostReset c = ((s.hostReset c).loadImage raw).2 ∧
      (s.loadImage raw).1 = ((s.hostReset c).loadImage raw).1

/-! ## Instructions: encoding, result and frame -/

/-- R94: ADDI. -/
def Obligations.AddiResult : Prop :=
  ∀ (c : Config) (rt rs : RegIx) (imm : BitVec 16) (s : State),
    decode c (0x08#6 ++ rs ++ rt ++ imm) = .addi rt rs imm ∧
    ∃ t, exec (.addi rt rs imm) s = .next t ∧
      OnlyWritesRegister rt (((s.readReg rs).toNat + sext64 imm.toNat) % 2 ^ 64) s t

/-- R95, R96, R98 (numbers: decision D14): ADDIU, ANDI, and LUI with its ignored rs field. -/
def Obligations.AddiuAndiLuiResults : Prop :=
  ∀ (c : Config) (rt rs : RegIx) (imm : BitVec 16) (s : State),
    decode c (0x09#6 ++ rs ++ rt ++ imm) = .addiu rt rs imm ∧
    decode c (0x0C#6 ++ rs ++ rt ++ imm) = .andi rt rs imm ∧
    decode c (0x0F#6 ++ rs ++ rt ++ imm) = .lui rt imm ∧
    (∃ t, exec (.addiu rt rs imm) s = .next t ∧
      OnlyWritesRegister rt (((s.readReg rs).toNat + sext64 imm.toNat) % 2 ^ 64) s t) ∧
    (∃ t, exec (.andi rt rs imm) s = .next t ∧
      OnlyWritesRegister rt ((s.readReg rs).toNat &&& imm.toNat) s t) ∧
    ∃ t, exec (.lui rt imm) s = .next t ∧ OnlyWritesRegister rt (imm.toNat * 2 ^ 16) s t

/-- R97: ORI. -/
def Obligations.OriResult : Prop :=
  ∀ (c : Config) (rt rs : RegIx) (imm : BitVec 16) (s : State),
    decode c (0x0D#6 ++ rs ++ rt ++ imm) = .ori rt rs imm ∧
    ∃ t, exec (.ori rt rs imm) s = .next t ∧ OnlyWritesRegister rt ((s.readReg rs).toNat ||| imm.toNat) s t

/-- R99, R100 (numbers: decision D14): J and JAL, the region from the instruction's own address, the link `pc + 8`. -/
def Obligations.JumpAndLinkResults : Prop :=
  ∀ (c : Config) (target : BitVec 26) (s : State),
    decode c (0x02#6 ++ target) = .j target ∧ decode c (0x03#6 ++ target) = .jal target ∧
    (∃ t, exec (.j target) s = .next t ∧ OnlySetsNextPc (jumpTargetOf s target) s t) ∧
    ∃ t, exec (.jal target) s = .next t ∧
      OnlyLinksAndJumps 31#5 ((s.pc.toNat + 8) % 2 ^ 64) (jumpTargetOf s target) s t

/-- R101, R102 (numbers: decision D14): BEQ and BNE, compared on all 64 bits; a branch not taken changes nothing. -/
def Obligations.BranchResults : Prop :=
  ∀ (c : Config) (rs rt : RegIx) (imm : BitVec 16) (s : State),
    decode c (0x04#6 ++ rs ++ rt ++ imm) = .beq rs rt imm ∧
    decode c (0x05#6 ++ rs ++ rt ++ imm) = .bne rs rt imm ∧
    (∃ t, exec (.beq rs rt imm) s = .next t ∧
      OnlySetsNextPc (if (s.readReg rs).toNat = (s.readReg rt).toNat then branchTargetOf s imm else s.nextPc.toNat) s t) ∧
    ∃ t, exec (.bne rs rt imm) s = .next t ∧
      OnlySetsNextPc (if (s.readReg rs).toNat ≠ (s.readReg rt).toNat then branchTargetOf s imm else s.nextPc.toNat) s t

/-- R103, R104 (numbers: decision D14; read order: D12): JR, and JALR, which jumps to the old value of rs even when rd is
rs; their ignored fields take any value. -/
def Obligations.RegisterJumpResults : Prop :=
  ∀ (c : Config) (rs rt rd sa : RegIx) (s : State),
    decode c (0x00#6 ++ rs ++ rt ++ rd ++ sa ++ 0x08#6) = .jr rs ∧
    decode c (0x00#6 ++ rs ++ rt ++ rd ++ sa ++ 0x09#6) = .jalr rd rs ∧
    (∃ t, exec (.jr rs) s = .next t ∧ OnlySetsNextPc (s.readReg rs).toNat s t) ∧
    ∃ t, exec (.jalr rd rs) s = .next t ∧
      OnlyLinksAndJumps rd ((s.pc.toNat + 8) % 2 ^ 64) (s.readReg rs).toNat s t

/-- R106 (number: decision D14): LW loads the word the address map gives, zero-extended, at any byte address. -/
def Obligations.LoadWordResult : Prop :=
  ∀ (c : Config) (rt rs : RegIx) (imm : BitVec 16) (s : State),
    decode c (0x23#6 ++ rs ++ rt ++ imm) = .lw rt imm rs ∧
    (s.effectiveAddress rs imm).toNat = addressOf s rs imm ∧
    ∃ t, exec (.lw rt imm rs) s = .next t ∧ OnlyWritesRegister rt (mapRead s (addressOf s rs imm % 2 ^ 32)) s t

/-- R107 (number: decision D14): SW stores the low 32 bits of rt at the four bytes the address map gives, or is
discarded; no register and no other byte changes. -/
def Obligations.StoreWordResult : Prop :=
  ∀ (c : Config) (rt rs : RegIx) (imm : BitVec 16) (s : State),
    decode c (0x2B#6 ++ rs ++ rt ++ imm) = .sw rt imm rs ∧
    (s.effectiveAddress rs imm).toNat = addressOf s rs imm ∧
    ∃ t, exec (.sw rt imm rs) s = .next t ∧
      (∀ o, (t.working.readByte o).toNat =
        mapWrite s (addressOf s rs imm % 2 ^ 32) ((s.readReg rt).toNat % 2 ^ 32) o) ∧
      KeepsRegisters s t ∧ t.nextPc = s.nextPc ∧ KeepsHiLo s t ∧ KeepsFrame s t

/-- R109, R110 (numbers: decision D14): SLL and SRL are shifts of the 64-bit value; rs is ignored. -/
def Obligations.ShiftResults : Prop :=
  ∀ (c : Config) (rs rt rd : RegIx) (sa : BitVec 5) (s : State),
    decode c (0x00#6 ++ rs ++ rt ++ rd ++ sa ++ 0x00#6) = .sll rd rt sa ∧
    decode c (0x00#6 ++ rs ++ rt ++ rd ++ sa ++ 0x02#6) = .srl rd rt sa ∧
    (∃ t, exec (.sll rd rt sa) s = .next t ∧
      OnlyWritesRegister rd ((s.readReg rt).toNat * 2 ^ sa.toNat % 2 ^ 64) s t) ∧
    ∃ t, exec (.srl rd rt sa) s = .next t ∧
      OnlyWritesRegister rd ((s.readReg rt).toNat / 2 ^ sa.toNat) s t

/-- R111: MFLO, whose rs, rt and sa fields are ignored. -/
def Obligations.MoveFromLoResult : Prop :=
  ∀ (c : Config) (rs rt rd sa : RegIx) (s : State),
    decode c (0x00#6 ++ rs ++ rt ++ rd ++ sa ++ 0x12#6) = .mflo rd ∧
    ∃ t, exec (.mflo rd) s = .next t ∧ OnlyWritesRegister rd s.lo.toNat s t

/-- R112, R113 (operand width: decision D19; funct 0x19: D13): both encodings of MULTU split the product modulo 2^64
between `lo` and `hi`; funct 0x19 decodes only under DECODE_FUNCT19 and is the fallback no-op otherwise. -/
def Obligations.MultiplyResults : Prop :=
  ∀ (c : Config) (rs rt rd sa : RegIx) (s : State),
    decode c (0x00#6 ++ rs ++ rt ++ rd ++ sa ++ 0x18#6) = .multu rs rt ∧
    decode c (0x00#6 ++ rs ++ rt ++ rd ++ sa ++ 0x19#6) =
      (if c.decodeFunct19 then .multu19 rs rt
        else .unrecognised (0x00#6 ++ rs ++ rt ++ rd ++ sa ++ 0x19#6)) ∧
    ∀ i, i = Instr.multu rs rt ∨ i = Instr.multu19 rs rt → ∃ t, exec i s = .next t ∧
      t.lo.toNat = bits ((s.readReg rs).toNat * (s.readReg rt).toNat % 2 ^ 64) 31 0 ∧
      t.hi.toNat = bits ((s.readReg rs).toNat * (s.readReg rt).toNat % 2 ^ 64) 63 32 ∧
      KeepsRegisters s t ∧ t.nextPc = s.nextPc ∧ KeepsWorking s t ∧ KeepsFrame s t

/-- R114, R116: ADD and SUB, modulo 2^64, without a trap; the sa field is ignored. -/
def Obligations.AddSubResults : Prop :=
  ∀ (c : Config) (rs rt rd sa : RegIx) (s : State),
    decode c (0x00#6 ++ rs ++ rt ++ rd ++ sa ++ 0x20#6) = .add rd rs rt ∧
    decode c (0x00#6 ++ rs ++ rt ++ rd ++ sa ++ 0x22#6) = .sub rd rs rt ∧
    (∃ t, exec (.add rd rs rt) s = .next t ∧
      OnlyWritesRegister rd (((s.readReg rs).toNat + (s.readReg rt).toNat) % 2 ^ 64) s t) ∧
    ∃ t, exec (.sub rd rs rt) s = .next t ∧
      OnlyWritesRegister rd (((s.readReg rs).toNat + 2 ^ 64 - (s.readReg rt).toNat) % 2 ^ 64) s t

/-- R115, R117, R118, R119 (numbers: decision D14): ADDU, SUBU, AND and OR. -/
def Obligations.AdduSubuAndOrResults : Prop :=
  ∀ (c : Config) (rs rt rd sa : RegIx) (s : State),
    decode c (0x00#6 ++ rs ++ rt ++ rd ++ sa ++ 0x21#6) = .addu rd rs rt ∧
    decode c (0x00#6 ++ rs ++ rt ++ rd ++ sa ++ 0x23#6) = .subu rd rs rt ∧
    decode c (0x00#6 ++ rs ++ rt ++ rd ++ sa ++ 0x24#6) = .and rd rs rt ∧
    decode c (0x00#6 ++ rs ++ rt ++ rd ++ sa ++ 0x25#6) = .or rd rs rt ∧
    (∃ t, exec (.addu rd rs rt) s = .next t ∧
      OnlyWritesRegister rd (((s.readReg rs).toNat + (s.readReg rt).toNat) % 2 ^ 64) s t) ∧
    (∃ t, exec (.subu rd rs rt) s = .next t ∧
      OnlyWritesRegister rd (((s.readReg rs).toNat + 2 ^ 64 - (s.readReg rt).toNat) % 2 ^ 64) s t) ∧
    (∃ t, exec (.and rd rs rt) s = .next t ∧
      OnlyWritesRegister rd ((s.readReg rs).toNat &&& (s.readReg rt).toNat) s t) ∧
    ∃ t, exec (.or rd rs rt) s = .next t ∧
      OnlyWritesRegister rd ((s.readReg rs).toNat ||| (s.readReg rt).toNat) s t

/-- R90: the execute phase of a word no row matches does nothing; the step around it advances, counts and re-pins r0,
and changes nothing else. -/
def Obligations.UnrecognisedWordsAreNoOps : Prop :=
  ∀ (c : Config) (w : Word32) (s : State), exec (.unrecognised w) s = .next s ∧
    (s.wasReset = true → decode c s.fetch = .unrecognised w →
      ∃ t, stepWith c s = .next t ∧ t.pc = s.nextPc ∧ t.nextPc = s.nextPc + 4 ∧ t.cycles = s.cycles + 1 ∧
        t.readReg 0#5 = 0#64 ∧ (∀ r, r ≠ 0#5 → t.readReg r = s.readReg r) ∧ KeepsHiLo s t ∧
        t.running = s.running ∧ t.working = s.working ∧ t.image = s.image ∧ t.imageByteOrder = s.imageByteOrder)

/-- R99, R91: a J in the program takes effect on the very next fetch: after its step `pc` is the target, and no
instruction between has run. -/
def Obligations.JumpTakesEffectOnTheNextFetch : Prop :=
  ∀ (c : Config) (s : State) (target : BitVec 26), s.wasReset = true → decode c s.fetch = .j target →
    ∃ t, stepWith c s = .next t ∧ t.pc.toNat = jumpTargetOf s target ∧ t.nextPc = t.pc + 4 ∧
      t.cycles = s.cycles + 1 ∧ ∀ r, r ≠ 0#5 → t.readReg r = s.readReg r

/-! ## Encoding -/

/-- R69 to R75: under every configuration, decoding the encoding of a well-formed instruction gives it back, with every
operand at every value. -/
def Obligations.DecodeOfEncodeIsTheInstruction : Prop :=
  ∀ (c : Config) (i : Instr), i.wellFormed c = true → decode c (encode i) = i

/-- R68, R76: every 32-bit word decodes, and what it decodes to is well formed. -/
def Obligations.EveryWordDecodesWellFormed : Prop :=
  ∀ (c : Config) (w : Word32), (decode c w).wellFormed c = true

/-- R75 (decision D11): re-encoding a decoded word keeps exactly the bits its instruction uses; the ignored fields come
back as 0, and do not change what is decoded. -/
def Obligations.EncodeOfDecodeKeepsTheUsedBits : Prop :=
  ∀ (c : Config) (w : Word32), encode (decode c w) = w &&& usedBits (decode c w) ∧
    decode c (w &&& usedBits (decode c w)) = decode c w

/-- R73, R74, R76 (numbers: decision D14): a word that matches a row of the opcode table decodes to that row's
mnemonic, and a word that matches none decodes to UNRECOGNISED. -/
def Obligations.OpcodeTableSelectsTheMnemonic : Prop :=
  ∀ (c : Config) (w : Word32),
    (∀ row ∈ opcodeRows c, w &&& row.mask = row.pattern → (decode c w).mnemonic = row.mnemonic) ∧
    ((∀ row ∈ opcodeRows c, w &&& row.mask ≠ row.pattern) → decode c w = .unrecognised w)

/-- R72, R76: only op, and funct under op 0, choose the instruction. -/
def Obligations.OnlyOpAndFunctSelect : Prop :=
  ∀ (c : Config) (w w' : Word32), bits w.toNat 31 26 = bits w'.toNat 31 26 →
    (bits w.toNat 31 26 = 0 → bits w.toNat 5 0 = bits w'.toNat 5 0) →
    (decode c w).mnemonic = (decode c w').mnemonic

/-- R76 (numbers: decision D14): 52 primary opcodes are unrecognised, and 51 function codes under opcode 0, or 52 when
DECODE_FUNCT19 is false. -/
def Obligations.UnrecognisedCodeCounts : Prop :=
  ∀ c : Config,
    ((List.range 64).filter fun n => (decode c (BitVec.ofNat 32 (n * 2 ^ 26))).mnemonic = "UNRECOGNISED").length = 52 ∧
    ((List.range 64).filter fun n => (decode c (BitVec.ofNat 32 n)).mnemonic = "UNRECOGNISED").length =
      if c.decodeFunct19 then 51 else 52

/-- R70: the six example words of the source. -/
def Obligations.ExampleWordsDecode : Prop :=
  decode Config.chosen 0x20010064#32 = .addi 1#5 0#5 100#16 ∧
  decode Config.chosen 0x3402FF00#32 = .ori 2#5 0#5 0xFF00#16 ∧
  decode Config.chosen 0x00221820#32 = .add 3#5 1#5 2#5 ∧
  decode Config.chosen 0x00412022#32 = .sub 4#5 2#5 1#5 ∧
  decode Config.chosen 0x00220018#32 = .multu 1#5 2#5 ∧
  decode Config.chosen 0x00001812#32 = .mflo 3#5
end

