-- ==== Sys2Proof/Laws/Memory.lean ====
section
/-! SUPPORT. The laws of a buffer: reading after writing, and the canonical form kept by every operation. -/

namespace Sys2Proof.Machine

open Sys2Proof.Safety

/-! ## Reading after writing -/

@[simp] theorem Memory.readByte_nil (o : Nat) : Memory.readByte [] o = unlistedByte := rfl

theorem Memory.readByte_filter_same (m : Memory) (o : Nat) :
    Memory.readByte (m.filter (fun c => c.1 != o)) o = unlistedByte := by
  induction m with
  | nil => rfl
  | cons c m ih =>
    by_cases h : c.1 = o
    · simp [h, ih]
    · simp [h, Memory.readByte, ih]

theorem Memory.readByte_filter_other (m : Memory) {o o' : Nat} (h : o' ≠ o) :
    Memory.readByte (m.filter (fun c => c.1 != o)) o' = Memory.readByte m o' := by
  induction m with
  | nil => rfl
  | cons c m ih =>
    by_cases hc : c.1 = o
    · have : c.1 ≠ o' := fun e => h (e.symm.trans hc)
      simp [hc, Memory.readByte, ih, Ne.symm h]
    · simp [hc, Memory.readByte, ih]

theorem Memory.readByte_insertCell (m : Memory) (o o' : Nat) (b : Byte) (h : o' = o → Memory.readByte m o = unlistedByte
    ∧ ∀ c ∈ m, c.1 ≠ o) :
    Memory.readByte (m.insertCell o b) o' = if o' = o then b else Memory.readByte m o' := by
  induction m with
  | nil => simp [Memory.insertCell, Memory.readByte, eq_comm]
  | cons c m ih =>
    unfold Memory.insertCell
    split
    · simp [Memory.readByte, eq_comm]
    · have ih' := ih (fun e => ⟨by
        have := (h e).2
        have hc : c.1 ≠ o := this c (by simp)
        simpa [Memory.readByte, hc] using (h e).1, fun d hd => (h e).2 d (by simp [hd])⟩)
      by_cases hc : c.1 = o'
      · have : o' ≠ o := fun e => (h e).2 c (by simp) (hc.trans e)
        simp [Memory.readByte, hc, this]
      · simp [Memory.readByte, hc, ih']

/-- A byte written is read back, and every other byte is as before. -/
theorem Memory.readByte_writeByte (m : Memory) (o o' : Nat) (b : Byte) :
    (m.writeByte o b).readByte o' = if o' = o then b else m.readByte o' := by
  unfold Memory.writeByte
  by_cases h : o' = o
  · subst h
    split
    · next hb => simp [hb, Memory.readByte_filter_same]
    · rw [Memory.readByte_insertCell _ _ _ _ (fun _ => ⟨Memory.readByte_filter_same m o', by simp⟩)]
      simp
  · split
    · simp [Memory.readByte_filter_other m h]
    · rw [Memory.readByte_insertCell _ _ _ _ (fun e => absurd e h)]
      simp [h, Memory.readByte_filter_other m h]

/-- Bytes written are read back in order, and every other byte is as before. -/
theorem Memory.readByte_writeBytes (m : Memory) (o o' : Nat) (bs : List Byte) :
    (m.writeBytes o bs).readByte o' =
      if o ≤ o' ∧ o' < o + bs.length then bs[o' - o]?.getD unlistedByte else m.readByte o' := by
  induction bs generalizing m o with
  | nil =>
    have : ¬(o ≤ o' ∧ o' < o) := by omega
    simp [Memory.writeBytes, this]
  | cons b bs ih =>
    rw [Memory.writeBytes, ih, Memory.readByte_writeByte]
    by_cases h1 : o' = o
    · subst h1; simp
    · by_cases h2 : o + 1 ≤ o' ∧ o' < o + 1 + bs.length
      · have h3 : o ≤ o' ∧ o' < o + (bs.length + 1) := by omega
        have h4 : o' - o = (o' - (o + 1)) + 1 := by omega
        simp [h2, h3, h4]
      · have h3 : ¬(o ≤ o' ∧ o' < o + (bs.length + 1)) := by omega
        simp only [List.length_cons]
        rw [if_neg h2, if_neg h3, if_neg h1]

/-! ## Words (R44) -/

/-- Concatenation with low bits is multiplication and addition. -/
theorem toNat_append_eq {n m : Nat} (a : BitVec n) (b : BitVec m) :
    (a ++ b).toNat = a.toNat * 2 ^ m + b.toNat := by
  rw [BitVec.toNat_append, ← Nat.shiftLeft_add_eq_or_of_lt b.isLt, Nat.shiftLeft_eq]

/-- BE32 of R44 is the word's number. -/
theorem Memory.readWord_toNat (m : Memory) (o : Nat) : (m.readWord o).toNat = be32 m o := by
  simp only [Memory.readWord, be32, toNat_append_eq]
  omega

theorem wordBytes_length (v : Word32) : (wordBytes v).length = 4 := rfl

/-- Byte k of a word's four bytes is its k-th byte from the most significant one. -/
theorem wordBytes_toNat (v : Word32) {k : Nat} (h : k < 4) :
    ((wordBytes v)[k]?.getD unlistedByte).toNat = bits v.toNat (31 - 8 * k) (24 - 8 * k) := by
  match k, h with
  | 0, _ => simp [wordBytes, bits, BitVec.extractLsb', Nat.shiftRight_eq_div_pow]
  | 1, _ => simp [wordBytes, bits, BitVec.extractLsb', Nat.shiftRight_eq_div_pow]
  | 2, _ => simp [wordBytes, bits, BitVec.extractLsb', Nat.shiftRight_eq_div_pow]
  | 3, _ => simp [wordBytes, bits, BitVec.extractLsb', Nat.shiftRight_eq_div_pow]

/-- A word written puts its four bytes at the offset, the most significant first, and keeps every other byte. -/
theorem Memory.readByte_writeWord_toNat (m : Memory) (o o' : Nat) (v : Word32) :
    ((m.writeWord o v).readByte o').toNat =
      if o ≤ o' ∧ o' < o + 4 then bits v.toNat (31 - 8 * (o' - o)) (24 - 8 * (o' - o)) else (m.readByte o').toNat := by
  rw [Memory.writeWord, Memory.readByte_writeBytes, wordBytes_length]
  split
  · exact wordBytes_toNat v (by omega)
  · rfl

/-- A word written is read back. -/
theorem Memory.readWord_writeWord (m : Memory) (o : Nat) (v : Word32) : (m.writeWord o v).readWord o = v := by
  apply BitVec.eq_of_toNat_eq
  rw [Memory.readWord_toNat]
  have := v.isLt
  simp [be32, Memory.readByte_writeWord_toNat, bits]
  omega

/-- A word that does not overlap the word written is read as before. -/
theorem Memory.readWord_writeWord_disjoint (m : Memory) {o o' : Nat} (v : Word32) (h : o + 4 ≤ o' ∨ o' + 4 ≤ o) :
    (m.writeWord o v).readWord o' = m.readWord o' := by
  have key : ∀ k, k < 4 → (m.writeWord o v).readByte (o' + k) = m.readByte (o' + k) := by
    intro k hk
    rw [Memory.writeWord, Memory.readByte_writeBytes, wordBytes_length, if_neg (by omega)]
  have h0 := key 0 (by omega)
  simp only [Nat.add_zero] at h0
  simp [Memory.readWord, h0, key]

/-! ## The canonical form -/

theorem Memory.wfFrom_mono {size lo lo' : Nat} {m : Memory} (h : lo' ≤ lo) (hm : Memory.wfFrom size lo m = true) :
    Memory.wfFrom size lo' m = true := by
  cases m with
  | nil => rfl
  | cons c m =>
    simp only [Memory.wfFrom, Bool.and_eq_true, decide_eq_true_eq] at hm ⊢
    exact ⟨⟨⟨by omega, hm.1.1.2⟩, hm.1.2⟩, hm.2⟩

theorem Memory.wfFrom_filter {size lo : Nat} {m : Memory} (p : Host.Cell → Bool)
    (hm : Memory.wfFrom size lo m = true) : Memory.wfFrom size lo (m.filter p) = true := by
  induction m generalizing lo with
  | nil => rfl
  | cons c m ih =>
    simp only [Memory.wfFrom, Bool.and_eq_true, decide_eq_true_eq] at hm
    rw [List.filter_cons]
    split
    · simp only [Memory.wfFrom, Bool.and_eq_true, decide_eq_true_eq]
      exact ⟨hm.1, ih hm.2⟩
    · exact Memory.wfFrom_mono (by omega) (ih hm.2)

theorem Memory.wfFrom_insertCell {size lo o : Nat} {b : Byte} {m : Memory} (ho : o < size) (hlo : lo ≤ o)
    (hb : b ≠ unlistedByte) (hne : ∀ c ∈ m, c.1 ≠ o) (hm : Memory.wfFrom size lo m = true) :
    Memory.wfFrom size lo (m.insertCell o b) = true := by
  induction m generalizing lo with
  | nil => simp [Memory.insertCell, Memory.wfFrom, ho, hlo, hb]
  | cons c m ih =>
    have hc : c.1 ≠ o := hne c (by simp)
    simp only [Memory.wfFrom, Bool.and_eq_true, decide_eq_true_eq] at hm
    unfold Memory.insertCell
    split
    · next hlt =>
      simp only [Memory.wfFrom, Bool.and_eq_true, decide_eq_true_eq]
      exact ⟨⟨⟨hlo, ho⟩, by simpa using hb⟩, ⟨⟨⟨by omega, hm.1.1.2⟩, hm.1.2⟩, hm.2⟩⟩
    · simp only [Memory.wfFrom, Bool.and_eq_true, decide_eq_true_eq]
      exact ⟨hm.1, ih (by omega) (fun d hd => hne d (by simp [hd])) hm.2⟩

/-- A byte written inside the capacity keeps the canonical form. -/
theorem Memory.wf_writeByte {size o : Nat} {b : Byte} {m : Memory} (ho : o < size) (hm : Memory.wf size m = true) :
    Memory.wf size (m.writeByte o b) = true := by
  unfold Memory.writeByte
  split
  · exact Memory.wfFrom_filter _ hm
  · next hb =>
    exact Memory.wfFrom_insertCell ho (Nat.zero_le _) hb (by simp) (Memory.wfFrom_filter _ hm)

/-- Bytes written inside the capacity keep the canonical form. -/
theorem Memory.wf_writeBytes {size o : Nat} {bs : List Byte} {m : Memory} (ho : o + bs.length ≤ size)
    (hm : Memory.wf size m = true) : Memory.wf size (m.writeBytes o bs) = true := by
  induction bs generalizing m o with
  | nil => exact hm
  | cons b bs ih =>
    simp only [List.length_cons] at ho
    exact ih (by omega) (Memory.wf_writeByte (by omega) hm)

/-- A word written inside the capacity keeps the canonical form. -/
theorem Memory.wf_writeWord {size o : Nat} {v : Word32} {m : Memory} (ho : o + 4 ≤ size)
    (hm : Memory.wf size m = true) : Memory.wf size (m.writeWord o v) = true :=
  Memory.wf_writeBytes (by simpa [wordBytes_length] using ho) hm

/-- write32 keeps the canonical form of `working`. -/
theorem storeWorking_wf {m : Memory} (addr : Word) (v : Word32) (hm : Memory.wf workingSize m = true) :
    Memory.wf workingSize (storeWorking m addr v) = true := by
  simp only [storeWorking]
  split
  · exact hm
  · split
    · next h => exact Memory.wf_writeWord (by simpa [inBounds] using h) hm
    · exact hm

theorem reverseGroups_length : ∀ bs : List Byte, (reverseGroups bs).length = bs.length
  | _ :: _ :: _ :: _ :: rest => by simp [reverseGroups, reverseGroups_length rest]
  | [] | [_] | [_, _] | [_, _, _] => rfl

theorem reemitLittleEndian_length : ∀ bs : List Byte, (reemitLittleEndian bs).length = bs.length
  | _ :: _ :: _ :: _ :: rest => by
    simp only [reemitLittleEndian, List.length_append, wordBytes_length, reemitLittleEndian_length rest,
      List.length_cons]
    omega
  | [] | [_] | [_, _] | [_, _, _] => rfl

theorem normalise_length (order : ByteOrder) (raw : List Byte) : (normalise order raw).length = raw.length := by
  cases order <;> simp [normalise, reverseGroups_length, reemitLittleEndian_length]

/-- `loadImage` keeps the canonical form of `image`. -/
theorem State.loadImage_wf {s : State} (raw : List Byte) (h : Memory.wf imageSize s.image = true) :
    Memory.wf imageSize (s.loadImage raw).2.image = true := by
  unfold State.loadImage
  split
  · split
    · exact h
    · split
      · exact h
      · next hs => exact Memory.wf_writeBytes (by rw [normalise_length]; omega) h
  · exact h

/-- `State.reset` has both buffers in their canonical form. -/
theorem State.reset_wf : Memory.wf workingSize State.reset.working = true ∧
    Memory.wf imageSize State.reset.image = true := ⟨rfl, rfl⟩

/-- The host's placement of an instruction keeps both buffers in their canonical form. -/
theorem State.placeFetch_wf {s : State} (w : Word32) (hw : Memory.wf workingSize s.working = true)
    (hi : Memory.wf imageSize s.image = true) : Memory.wf workingSize (s.placeFetch w).working = true ∧
    Memory.wf imageSize (s.placeFetch w).image = true := by
  simp only [State.placeFetch]
  split
  · next h =>
    simp only [inBounds, Bool.and_eq_true, decide_eq_true_eq] at h
    exact ⟨hw, Memory.wf_writeWord h.2 hi⟩
  · split
    · next h => exact ⟨Memory.wf_writeWord (by simpa [inBounds] using h) hw, hi⟩
    · exact ⟨Memory.wf_writeWord (by decide) hw, hi⟩

end Sys2Proof.Machine
end

