-- ==== Sys2Proof/Laws/Decode.lean ====
section
/-! SUPPORT. The fields of an encoded word, format by format (30_encoding.md R69, R70). -/

namespace Sys2Proof

open Sys2Proof.Machine

/-- A field as a number: `w[lo + n - 1 : lo]`. -/
theorem extractLsb'_toNat_eq (w : Word32) (lo n : Nat) : (w.extractLsb' lo n).toNat = w.toNat / 2 ^ lo % 2 ^ n := by
  simp [BitVec.extractLsb', Nat.shiftRight_eq_div_pow]

section Fields
variable (op : BitVec 6) (rs rt rd : RegIx) (imm : BitVec 16) (target : BitVec 26) (sa : BitVec 5) (funct : BitVec 6)

@[simp] theorem opField_encodeI : opField (encodeI op rs rt imm) = op := by
  apply BitVec.eq_of_toNat_eq; simp only [opField, encodeI, extractLsb'_toNat_eq, toNat_append_eq]; omega
@[simp] theorem rsField_encodeI : rsField (encodeI op rs rt imm) = rs := by
  apply BitVec.eq_of_toNat_eq; simp only [rsField, encodeI, extractLsb'_toNat_eq, toNat_append_eq]; omega
@[simp] theorem rtField_encodeI : rtField (encodeI op rs rt imm) = rt := by
  apply BitVec.eq_of_toNat_eq; simp only [rtField, encodeI, extractLsb'_toNat_eq, toNat_append_eq]; omega
@[simp] theorem immField_encodeI : immField (encodeI op rs rt imm) = imm := by
  apply BitVec.eq_of_toNat_eq; simp only [immField, encodeI, extractLsb'_toNat_eq, toNat_append_eq]; omega

@[simp] theorem opField_encodeJ : opField (encodeJ op target) = op := by
  apply BitVec.eq_of_toNat_eq; simp only [opField, encodeJ, extractLsb'_toNat_eq, toNat_append_eq]; omega
@[simp] theorem targetField_encodeJ : targetField (encodeJ op target) = target := by
  apply BitVec.eq_of_toNat_eq; simp only [targetField, encodeJ, extractLsb'_toNat_eq, toNat_append_eq]; omega

@[simp] theorem opField_encodeR : opField (encodeR rs rt rd sa funct) = 0x00#6 := by
  apply BitVec.eq_of_toNat_eq; simp only [opField, encodeR, extractLsb'_toNat_eq, toNat_append_eq]; omega
@[simp] theorem rsField_encodeR : rsField (encodeR rs rt rd sa funct) = rs := by
  apply BitVec.eq_of_toNat_eq; simp only [rsField, encodeR, extractLsb'_toNat_eq, toNat_append_eq]; omega
@[simp] theorem rtField_encodeR : rtField (encodeR rs rt rd sa funct) = rt := by
  apply BitVec.eq_of_toNat_eq; simp only [rtField, encodeR, extractLsb'_toNat_eq, toNat_append_eq]; omega
@[simp] theorem rdField_encodeR : rdField (encodeR rs rt rd sa funct) = rd := by
  apply BitVec.eq_of_toNat_eq; simp only [rdField, encodeR, extractLsb'_toNat_eq, toNat_append_eq]; omega
@[simp] theorem saField_encodeR : saField (encodeR rs rt rd sa funct) = sa := by
  apply BitVec.eq_of_toNat_eq; simp only [saField, encodeR, extractLsb'_toNat_eq, toNat_append_eq]; omega
@[simp] theorem functField_encodeR : functField (encodeR rs rt rd sa funct) = funct := by
  apply BitVec.eq_of_toNat_eq; simp only [functField, encodeR, extractLsb'_toNat_eq, toNat_append_eq]; omega

end Fields

/-- A word's four bytes, read big-endian, are the word. -/
theorem decodeBytes_wordBytes (c : Config) (w : Word32) (rest : List Byte) :
    decodeBytes c (wordBytes w ++ rest) = .ok (decode c w, rest) := by
  have : w.extractLsb' 24 8 ++ w.extractLsb' 16 8 ++ w.extractLsb' 8 8 ++ w.extractLsb' 0 8 = w := by
    apply BitVec.eq_of_toNat_eq
    have := w.isLt
    simp only [extractLsb'_toNat_eq, toNat_append_eq]
    omega
  simp [wordBytes, decodeBytes, this]

end Sys2Proof
end

