-- ==== Sys2Proof/Laws/State.lean ====
section
/-! SUPPORT. One lemma per field per update of State, each true by `rfl`, so that no proof unfolds an update. -/

namespace Sys2Proof.Machine

variable (s : State)

/-! A register write (R86). -/

@[simp] theorem State.writeReg_x (i : RegIx) (v : Word) : (s.writeReg i v).x = if i = 0#5 then s.x else s.x.set i.toNat v := rfl
@[simp] theorem State.writeReg_pc (i : RegIx) (v : Word) : (s.writeReg i v).pc = s.pc := rfl
@[simp] theorem State.writeReg_nextPc (i : RegIx) (v : Word) : (s.writeReg i v).nextPc = s.nextPc := rfl
@[simp] theorem State.writeReg_hi (i : RegIx) (v : Word) : (s.writeReg i v).hi = s.hi := rfl
@[simp] theorem State.writeReg_lo (i : RegIx) (v : Word) : (s.writeReg i v).lo = s.lo := rfl
@[simp] theorem State.writeReg_cycles (i : RegIx) (v : Word) : (s.writeReg i v).cycles = s.cycles := rfl
@[simp] theorem State.writeReg_running (i : RegIx) (v : Word) : (s.writeReg i v).running = s.running := rfl
@[simp] theorem State.writeReg_working (i : RegIx) (v : Word) : (s.writeReg i v).working = s.working := rfl
@[simp] theorem State.writeReg_image (i : RegIx) (v : Word) : (s.writeReg i v).image = s.image := rfl
@[simp] theorem State.writeReg_imageByteOrder (i : RegIx) (v : Word) : (s.writeReg i v).imageByteOrder = s.imageByteOrder := rfl
@[simp] theorem State.writeReg_wasReset (i : RegIx) (v : Word) : (s.writeReg i v).wasReset = s.wasReset := rfl

/-! A write of `nextPc`. -/

@[simp] theorem State.setNextPc_x (v : Word) : (s.setNextPc v).x = s.x := rfl
@[simp] theorem State.setNextPc_pc (v : Word) : (s.setNextPc v).pc = s.pc := rfl
@[simp] theorem State.setNextPc_nextPc (v : Word) : (s.setNextPc v).nextPc = v := rfl
@[simp] theorem State.setNextPc_hi (v : Word) : (s.setNextPc v).hi = s.hi := rfl
@[simp] theorem State.setNextPc_lo (v : Word) : (s.setNextPc v).lo = s.lo := rfl
@[simp] theorem State.setNextPc_cycles (v : Word) : (s.setNextPc v).cycles = s.cycles := rfl
@[simp] theorem State.setNextPc_running (v : Word) : (s.setNextPc v).running = s.running := rfl
@[simp] theorem State.setNextPc_working (v : Word) : (s.setNextPc v).working = s.working := rfl
@[simp] theorem State.setNextPc_image (v : Word) : (s.setNextPc v).image = s.image := rfl
@[simp] theorem State.setNextPc_imageByteOrder (v : Word) : (s.setNextPc v).imageByteOrder = s.imageByteOrder := rfl
@[simp] theorem State.setNextPc_wasReset (v : Word) : (s.setNextPc v).wasReset = s.wasReset := rfl

/-! A write of `hi` and `lo`. -/

@[simp] theorem State.setHiLo_x (h l : Word) : (s.setHiLo h l).x = s.x := rfl
@[simp] theorem State.setHiLo_pc (h l : Word) : (s.setHiLo h l).pc = s.pc := rfl
@[simp] theorem State.setHiLo_nextPc (h l : Word) : (s.setHiLo h l).nextPc = s.nextPc := rfl
@[simp] theorem State.setHiLo_hi (h l : Word) : (s.setHiLo h l).hi = h := rfl
@[simp] theorem State.setHiLo_lo (h l : Word) : (s.setHiLo h l).lo = l := rfl
@[simp] theorem State.setHiLo_cycles (h l : Word) : (s.setHiLo h l).cycles = s.cycles := rfl
@[simp] theorem State.setHiLo_running (h l : Word) : (s.setHiLo h l).running = s.running := rfl
@[simp] theorem State.setHiLo_working (h l : Word) : (s.setHiLo h l).working = s.working := rfl
@[simp] theorem State.setHiLo_image (h l : Word) : (s.setHiLo h l).image = s.image := rfl
@[simp] theorem State.setHiLo_imageByteOrder (h l : Word) : (s.setHiLo h l).imageByteOrder = s.imageByteOrder := rfl
@[simp] theorem State.setHiLo_wasReset (h l : Word) : (s.setHiLo h l).wasReset = s.wasReset := rfl

/-! write32 (R46). -/

@[simp] theorem State.write32_x (addr v : Word) : (s.write32 addr v).x = s.x := rfl
@[simp] theorem State.write32_pc (addr v : Word) : (s.write32 addr v).pc = s.pc := rfl
@[simp] theorem State.write32_nextPc (addr v : Word) : (s.write32 addr v).nextPc = s.nextPc := rfl
@[simp] theorem State.write32_hi (addr v : Word) : (s.write32 addr v).hi = s.hi := rfl
@[simp] theorem State.write32_lo (addr v : Word) : (s.write32 addr v).lo = s.lo := rfl
@[simp] theorem State.write32_cycles (addr v : Word) : (s.write32 addr v).cycles = s.cycles := rfl
@[simp] theorem State.write32_running (addr v : Word) : (s.write32 addr v).running = s.running := rfl
@[simp] theorem State.write32_working (addr v : Word) : (s.write32 addr v).working = storeWorking s.working addr (v.setWidth 32) := rfl
@[simp] theorem State.write32_image (addr v : Word) : (s.write32 addr v).image = s.image := rfl
@[simp] theorem State.write32_imageByteOrder (addr v : Word) : (s.write32 addr v).imageByteOrder = s.imageByteOrder := rfl
@[simp] theorem State.write32_wasReset (addr v : Word) : (s.write32 addr v).wasReset = s.wasReset := rfl

/-! Phase 4 of a step (R87). -/

@[simp] theorem State.repin_x : (s.repin).x = s.x.set 0 0#64 := rfl
@[simp] theorem State.repin_pc : (s.repin).pc = s.pc := rfl
@[simp] theorem State.repin_nextPc : (s.repin).nextPc = s.nextPc := rfl
@[simp] theorem State.repin_hi : (s.repin).hi = s.hi := rfl
@[simp] theorem State.repin_lo : (s.repin).lo = s.lo := rfl
@[simp] theorem State.repin_cycles : (s.repin).cycles = s.cycles := rfl
@[simp] theorem State.repin_running : (s.repin).running = s.running := rfl
@[simp] theorem State.repin_working : (s.repin).working = s.working := rfl
@[simp] theorem State.repin_image : (s.repin).image = s.image := rfl
@[simp] theorem State.repin_imageByteOrder : (s.repin).imageByteOrder = s.imageByteOrder := rfl
@[simp] theorem State.repin_wasReset : (s.repin).wasReset = s.wasReset := rfl

/-! Phase 5 of a step (R88). -/

@[simp] theorem State.advance_x : (s.advance).x = s.x := rfl
@[simp] theorem State.advance_pc : (s.advance).pc = s.nextPc := rfl
@[simp] theorem State.advance_nextPc : (s.advance).nextPc = s.nextPc + 4 := rfl
@[simp] theorem State.advance_hi : (s.advance).hi = s.hi := rfl
@[simp] theorem State.advance_lo : (s.advance).lo = s.lo := rfl
@[simp] theorem State.advance_cycles : (s.advance).cycles = s.cycles := rfl
@[simp] theorem State.advance_running : (s.advance).running = s.running := rfl
@[simp] theorem State.advance_working : (s.advance).working = s.working := rfl
@[simp] theorem State.advance_image : (s.advance).image = s.image := rfl
@[simp] theorem State.advance_imageByteOrder : (s.advance).imageByteOrder = s.imageByteOrder := rfl
@[simp] theorem State.advance_wasReset : (s.advance).wasReset = s.wasReset := rfl

/-! Phase 6 of a step (R89). -/

@[simp] theorem State.count_x : (s.count).x = s.x := rfl
@[simp] theorem State.count_pc : (s.count).pc = s.pc := rfl
@[simp] theorem State.count_nextPc : (s.count).nextPc = s.nextPc := rfl
@[simp] theorem State.count_hi : (s.count).hi = s.hi := rfl
@[simp] theorem State.count_lo : (s.count).lo = s.lo := rfl
@[simp] theorem State.count_cycles : (s.count).cycles = s.cycles + 1 := rfl
@[simp] theorem State.count_running : (s.count).running = s.running := rfl
@[simp] theorem State.count_working : (s.count).working = s.working := rfl
@[simp] theorem State.count_image : (s.count).image = s.image := rfl
@[simp] theorem State.count_imageByteOrder : (s.count).imageByteOrder = s.imageByteOrder := rfl
@[simp] theorem State.count_wasReset : (s.count).wasReset = s.wasReset := rfl

/-! Phases 4 to 6 of a step. -/

@[simp] theorem State.commit_x : (s.commit).x = s.x.set 0 0#64 := rfl
@[simp] theorem State.commit_pc : (s.commit).pc = s.nextPc := rfl
@[simp] theorem State.commit_nextPc : (s.commit).nextPc = s.nextPc + 4 := rfl
@[simp] theorem State.commit_hi : (s.commit).hi = s.hi := rfl
@[simp] theorem State.commit_lo : (s.commit).lo = s.lo := rfl
@[simp] theorem State.commit_cycles : (s.commit).cycles = s.cycles + 1 := rfl
@[simp] theorem State.commit_running : (s.commit).running = s.running := rfl
@[simp] theorem State.commit_working : (s.commit).working = s.working := rfl
@[simp] theorem State.commit_image : (s.commit).image = s.image := rfl
@[simp] theorem State.commit_imageByteOrder : (s.commit).imageByteOrder = s.imageByteOrder := rfl
@[simp] theorem State.commit_wasReset : (s.commit).wasReset = s.wasReset := rfl

/-! The driver's write of `running` (R27). -/

@[simp] theorem State.setRunning_x (b : Bool) : (s.setRunning b).x = s.x := rfl
@[simp] theorem State.setRunning_pc (b : Bool) : (s.setRunning b).pc = s.pc := rfl
@[simp] theorem State.setRunning_nextPc (b : Bool) : (s.setRunning b).nextPc = s.nextPc := rfl
@[simp] theorem State.setRunning_hi (b : Bool) : (s.setRunning b).hi = s.hi := rfl
@[simp] theorem State.setRunning_lo (b : Bool) : (s.setRunning b).lo = s.lo := rfl
@[simp] theorem State.setRunning_cycles (b : Bool) : (s.setRunning b).cycles = s.cycles := rfl
@[simp] theorem State.setRunning_running (b : Bool) : (s.setRunning b).running = b := rfl
@[simp] theorem State.setRunning_working (b : Bool) : (s.setRunning b).working = s.working := rfl
@[simp] theorem State.setRunning_image (b : Bool) : (s.setRunning b).image = s.image := rfl
@[simp] theorem State.setRunning_imageByteOrder (b : Bool) : (s.setRunning b).imageByteOrder = s.imageByteOrder := rfl
@[simp] theorem State.setRunning_wasReset (b : Bool) : (s.setRunning b).wasReset = s.wasReset := rfl

/-! `reset()` (R133, R134). -/

@[simp] theorem State.hostReset_x (c : Config) : (s.hostReset c).x = Vector.replicate 32 0#64 := rfl
@[simp] theorem State.hostReset_pc (c : Config) : (s.hostReset c).pc = c.resetVector := rfl
@[simp] theorem State.hostReset_nextPc (c : Config) : (s.hostReset c).nextPc = c.resetVector + 4 := rfl
@[simp] theorem State.hostReset_hi (c : Config) : (s.hostReset c).hi = 0#64 := rfl
@[simp] theorem State.hostReset_lo (c : Config) : (s.hostReset c).lo = 0#64 := rfl
@[simp] theorem State.hostReset_cycles (c : Config) : (s.hostReset c).cycles = 0 := rfl
@[simp] theorem State.hostReset_running (c : Config) : (s.hostReset c).running = false := rfl
@[simp] theorem State.hostReset_working (c : Config) : (s.hostReset c).working = s.working := rfl
@[simp] theorem State.hostReset_image (c : Config) : (s.hostReset c).image = s.image := rfl
@[simp] theorem State.hostReset_imageByteOrder (c : Config) : (s.hostReset c).imageByteOrder = s.imageByteOrder := rfl
@[simp] theorem State.hostReset_wasReset (c : Config) : (s.hostReset c).wasReset = true := rfl

/-! The entry handshake (R137). -/

@[simp] theorem State.handshake_x (c : Config) (n : Nat) : (s.handshake c n).x = s.x := rfl
@[simp] theorem State.handshake_pc (c : Config) (n : Nat) : (s.handshake c n).pc = s.entryAddress c n := rfl
@[simp] theorem State.handshake_nextPc (c : Config) (n : Nat) : (s.handshake c n).nextPc = s.entryAddress c n + 4 := rfl
@[simp] theorem State.handshake_hi (c : Config) (n : Nat) : (s.handshake c n).hi = s.hi := rfl
@[simp] theorem State.handshake_lo (c : Config) (n : Nat) : (s.handshake c n).lo = s.lo := rfl
@[simp] theorem State.handshake_cycles (c : Config) (n : Nat) : (s.handshake c n).cycles = s.cycles := rfl
@[simp] theorem State.handshake_running (c : Config) (n : Nat) : (s.handshake c n).running = s.running := rfl
@[simp] theorem State.handshake_working (c : Config) (n : Nat) : (s.handshake c n).working = s.working := rfl
@[simp] theorem State.handshake_image (c : Config) (n : Nat) : (s.handshake c n).image = s.image := rfl
@[simp] theorem State.handshake_imageByteOrder (c : Config) (n : Nat) : (s.handshake c n).imageByteOrder = s.imageByteOrder := rfl
@[simp] theorem State.handshake_wasReset (c : Config) (n : Nat) : (s.handshake c n).wasReset = s.wasReset := rfl

end Sys2Proof.Machine
end

