-- ==== Sys2Proof/Laws/Ops.lean ====
section
/-! SUPPORT. One lemma per shared operation, saying what it can do: register reads after writes, the cases of an
access, what an execute phase keeps, and what a step that answers a next state has done. -/

namespace Sys2Proof.Machine

open Sys2Proof.Safety

/-! ## Registers -/

/-- Reading after a register write (R13, R86). -/
theorem State.readReg_writeReg (s : State) (i r : RegIx) (v : Word) :
    (s.writeReg i v).readReg r = if r = i ∧ i ≠ 0#5 then v else s.readReg r := by
  unfold State.readReg
  simp only [State.writeReg_x]
  by_cases hi : i = 0#5
  · simp [hi]
  · by_cases hr : r = i
    · subst hr; simp [hi]
    · have : i.toNat ≠ r.toNat := fun e => hr (BitVec.eq_of_toNat_eq e.symm)
      simp [hi, hr, this]

/-- Reading after the re-pin (R87). -/
theorem State.readReg_repin (s : State) (r : RegIx) :
    s.repin.readReg r = if r = 0#5 then 0#64 else s.readReg r := by
  unfold State.readReg
  by_cases hr : r = 0#5
  · subst hr; simp
  · have : 0 ≠ r.toNat := fun e => hr (BitVec.eq_of_toNat_eq e.symm)
    simp [hr, this]

/-- Reading after the end of a step. -/
theorem State.readReg_commit (s : State) (r : RegIx) :
    s.commit.readReg r = if r = 0#5 then 0#64 else s.readReg r := State.readReg_repin s r

/-- A register write whose number is known, as the frame claims say it. -/
theorem writesRegister_writeReg (s : State) (i : RegIx) (v : Word) :
    WritesRegister i v.toNat s (s.writeReg i v) := by
  intro r
  rw [State.readReg_writeReg]
  split <;> rfl

/-- What a register write keeps. -/
theorem onlyWritesRegister_writeReg (s : State) (i : RegIx) (v : Word) :
    OnlyWritesRegister i v.toNat s (s.writeReg i v) :=
  ⟨writesRegister_writeReg s i v, rfl, ⟨rfl, rfl⟩, fun _ => rfl, rfl, rfl, rfl, fun _ => rfl, rfl, rfl⟩

/-- What a write of `nextPc` keeps. -/
theorem onlySetsNextPc_setNextPc (s : State) (v : Word) : OnlySetsNextPc v.toNat s (s.setNextPc v) :=
  ⟨rfl, fun _ => rfl, ⟨rfl, rfl⟩, fun _ => rfl, rfl, rfl, rfl, fun _ => rfl, rfl, rfl⟩

/-! ## Accesses -/

theorem virtualAddress_toNat (addr : Word) : (virtualAddress addr).toNat = addr.toNat % 2 ^ 32 := by
  simp [virtualAddress]

theorem inWindow_iff (a : Word32) : inWindow a = true ↔ 0x10000000 ≤ a.toNat ∧ a.toNat ≤ 0x13FFFFFF := by
  rw [inWindow, Bool.and_eq_true, decide_eq_true_eq, decide_eq_true_eq]

theorem inBounds_iff (off size : Nat) : inBounds off size = true ↔ off + 4 ≤ size := by
  rw [inBounds, decide_eq_true_eq]

theorem inBounds_eq_false_iff (off size : Nat) : inBounds off size = false ↔ size < off + 4 := by
  rw [inBounds, decide_eq_false_iff_not, Nat.not_le]

/-- read32 answers a word of `image`, a word of `working`, or 0 (R45). -/
theorem State.read32_cases (s : State) (addr : Word) :
    (inWindow (virtualAddress addr) = true ∧ inBounds (windowOffset (virtualAddress addr)) imageSize = true ∧
        s.read32 addr = s.image.readWord (windowOffset (virtualAddress addr))) ∨
      (¬(inWindow (virtualAddress addr) = true ∧ inBounds (windowOffset (virtualAddress addr)) imageSize = true) ∧
        inBounds (translate (virtualAddress addr)).toNat workingSize = true ∧
        s.read32 addr = s.working.readWord (translate (virtualAddress addr)).toNat) ∨
      (¬(inWindow (virtualAddress addr) = true ∧ inBounds (windowOffset (virtualAddress addr)) imageSize = true) ∧
        inBounds (translate (virtualAddress addr)).toNat workingSize = false ∧ s.read32 addr = 0#32) := by
  simp only [State.read32]
  split
  · next h => simp_all
  · next h =>
    split
    · next h' => exact .inr (.inl ⟨by simpa using h, h', rfl⟩)
    · next h' => exact .inr (.inr ⟨by simpa using h, by simpa using h', rfl⟩)

/-- write32 stores a word of `working`, outside the window and in bounds, or leaves the buffer as it was (R46). -/
theorem storeWorking_cases (m : Memory) (addr : Word) (v : Word32) :
    (inWindow (virtualAddress addr) = false ∧ inBounds (translate (virtualAddress addr)).toNat workingSize = true ∧
        storeWorking m addr v = m.writeWord (translate (virtualAddress addr)).toNat v) ∨
      ((inWindow (virtualAddress addr) = true ∨
          inBounds (translate (virtualAddress addr)).toNat workingSize = false) ∧ storeWorking m addr v = m) := by
  simp only [storeWorking]
  split
  · next h => exact .inr ⟨.inl h, rfl⟩
  · next h =>
    split
    · next h' => exact .inl ⟨by simpa using h, h', rfl⟩
    · next h' => exact .inr ⟨.inr (by simpa using h'), rfl⟩

/-! ## Execute phase and step -/

/-- Every execute phase answers a next state that keeps `pc`, `cycles`, `running`, `image`, its tag and the model's own
flag. -/
theorem exec_next (i : Instr) (s : State) : ∃ t, exec i s = .next t ∧ t.pc = s.pc ∧ t.cycles = s.cycles ∧
    t.running = s.running ∧ t.image = s.image ∧ t.imageByteOrder = s.imageByteOrder ∧ t.wasReset = s.wasReset := by
  cases i <;> exact ⟨_, rfl, rfl, rfl, rfl, rfl, rfl, rfl⟩

/-- A step answers a next state exactly when the block has been reset, and it is then the committed result of the
decoded instruction. -/
theorem stepWith_next_iff (c : Config) (s t : State) :
    stepWith c s = .next t ↔ s.wasReset = true ∧ ∃ u, exec (decode c s.fetch) s = .next u ∧ t = u.commit := by
  unfold stepWith
  obtain ⟨u, hu, -⟩ := exec_next (decode c s.fetch) s
  cases h : s.wasReset <;> simp [hu, commitOutcome, eq_comm]

end Sys2Proof.Machine
end

