-- ==== Sys2Proof/Laws/PerInstr.lean ====
section
/-! SUPPORT. Statements made of every instruction as syntax, one lemma per constructor. -/

namespace Sys2Proof.Laws.Recognised

/-- The maps of R73 and R74, written as lists in WellFormed, hold the word the encoder gives a well-formed instruction,
and leave out the words of the fallback row (R76). -/
def Statement (i : Instr) : Prop :=
  ∀ c : Config, i.wellFormed c = true → recognisedWord c (encode i) = !(i.mnemonic == "UNRECOGNISED")

/-- A word of a primary opcode of R73 is recognised by that opcode. -/
theorem recognised_of_op {c : Config} {w : Word32} {op : BitVec 6} (h : opField w = op) (hne : op ≠ 0#6)
    (hmem : recognisedOps.contains op = true) : recognisedWord c w = true := by
  subst h
  exact (if_neg hne).trans hmem

/-- A word of opcode 0 and a function code of R74 is recognised by that code. -/
theorem recognised_of_funct {c : Config} {w : Word32} {funct : BitVec 6} (h : opField w = 0#6)
    (hf : functField w = funct)
    (hmem : (recognisedFuncts.contains funct || (c.decodeFunct19 && funct == 0x19#6)) = true) :
    recognisedWord c w = true := by
  subst hf
  exact (if_pos h).trans hmem

/-- A function code of the list is recognised under both settings of DECODE_FUNCT19. -/
theorem listed_funct {c : Config} {funct : BitVec 6} (h : recognisedFuncts.contains funct = true) :
    (recognisedFuncts.contains funct || (c.decodeFunct19 && funct == 0x19#6)) = true := by
  rw [h, Bool.true_or]

theorem j (target : BitVec 26) : Statement (.j target) := fun _ _ =>
  recognised_of_op (opField_encodeJ ..) (by decide) rfl

theorem jal (target : BitVec 26) : Statement (.jal target) := fun _ _ =>
  recognised_of_op (opField_encodeJ ..) (by decide) rfl

theorem beq (rs : RegIx) (rt : RegIx) (imm : BitVec 16) : Statement (.beq rs rt imm) := fun _ _ =>
  recognised_of_op (opField_encodeI ..) (by decide) rfl

theorem bne (rs : RegIx) (rt : RegIx) (imm : BitVec 16) : Statement (.bne rs rt imm) := fun _ _ =>
  recognised_of_op (opField_encodeI ..) (by decide) rfl

theorem addi (rt : RegIx) (rs : RegIx) (imm : BitVec 16) : Statement (.addi rt rs imm) := fun _ _ =>
  recognised_of_op (opField_encodeI ..) (by decide) rfl

theorem addiu (rt : RegIx) (rs : RegIx) (imm : BitVec 16) : Statement (.addiu rt rs imm) := fun _ _ =>
  recognised_of_op (opField_encodeI ..) (by decide) rfl

theorem andi (rt : RegIx) (rs : RegIx) (imm : BitVec 16) : Statement (.andi rt rs imm) := fun _ _ =>
  recognised_of_op (opField_encodeI ..) (by decide) rfl

theorem ori (rt : RegIx) (rs : RegIx) (imm : BitVec 16) : Statement (.ori rt rs imm) := fun _ _ =>
  recognised_of_op (opField_encodeI ..) (by decide) rfl

theorem lui (rt : RegIx) (imm : BitVec 16) : Statement (.lui rt imm) := fun _ _ =>
  recognised_of_op (opField_encodeI ..) (by decide) rfl

theorem lw (rt : RegIx) (imm : BitVec 16) (rs : RegIx) : Statement (.lw rt imm rs) := fun _ _ =>
  recognised_of_op (opField_encodeI ..) (by decide) rfl

theorem sw (rt : RegIx) (imm : BitVec 16) (rs : RegIx) : Statement (.sw rt imm rs) := fun _ _ =>
  recognised_of_op (opField_encodeI ..) (by decide) rfl

theorem sll (rd : RegIx) (rt : RegIx) (sa : BitVec 5) : Statement (.sll rd rt sa) := fun _ _ =>
  recognised_of_funct (opField_encodeR ..) (functField_encodeR ..) (listed_funct rfl)

theorem srl (rd : RegIx) (rt : RegIx) (sa : BitVec 5) : Statement (.srl rd rt sa) := fun _ _ =>
  recognised_of_funct (opField_encodeR ..) (functField_encodeR ..) (listed_funct rfl)

theorem jr (rs : RegIx) : Statement (.jr rs) := fun _ _ =>
  recognised_of_funct (opField_encodeR ..) (functField_encodeR ..) (listed_funct rfl)

theorem jalr (rd : RegIx) (rs : RegIx) : Statement (.jalr rd rs) := fun _ _ =>
  recognised_of_funct (opField_encodeR ..) (functField_encodeR ..) (listed_funct rfl)

theorem mflo (rd : RegIx) : Statement (.mflo rd) := fun _ _ =>
  recognised_of_funct (opField_encodeR ..) (functField_encodeR ..) (listed_funct rfl)

theorem multu (rs : RegIx) (rt : RegIx) : Statement (.multu rs rt) := fun _ _ =>
  recognised_of_funct (opField_encodeR ..) (functField_encodeR ..) (listed_funct rfl)

theorem multu19 (rs : RegIx) (rt : RegIx) : Statement (.multu19 rs rt) := fun _ h =>
  recognised_of_funct (opField_encodeR ..) (functField_encodeR ..) (congrArg (fun f => false || (f && true)) h)

theorem add (rd : RegIx) (rs : RegIx) (rt : RegIx) : Statement (.add rd rs rt) := fun _ _ =>
  recognised_of_funct (opField_encodeR ..) (functField_encodeR ..) (listed_funct rfl)

theorem addu (rd : RegIx) (rs : RegIx) (rt : RegIx) : Statement (.addu rd rs rt) := fun _ _ =>
  recognised_of_funct (opField_encodeR ..) (functField_encodeR ..) (listed_funct rfl)

theorem sub (rd : RegIx) (rs : RegIx) (rt : RegIx) : Statement (.sub rd rs rt) := fun _ _ =>
  recognised_of_funct (opField_encodeR ..) (functField_encodeR ..) (listed_funct rfl)

theorem subu (rd : RegIx) (rs : RegIx) (rt : RegIx) : Statement (.subu rd rs rt) := fun _ _ =>
  recognised_of_funct (opField_encodeR ..) (functField_encodeR ..) (listed_funct rfl)

theorem and (rd : RegIx) (rs : RegIx) (rt : RegIx) : Statement (.and rd rs rt) := fun _ _ =>
  recognised_of_funct (opField_encodeR ..) (functField_encodeR ..) (listed_funct rfl)

theorem or (rd : RegIx) (rs : RegIx) (rt : RegIx) : Statement (.or rd rs rt) := fun _ _ =>
  recognised_of_funct (opField_encodeR ..) (functField_encodeR ..) (listed_funct rfl)

theorem unrecognised (w : Word32) : Statement (.unrecognised w) := fun c h =>
  (Bool.not_eq_true' (recognisedWord c w)).mp h

end Sys2Proof.Laws.Recognised
end

