-- ==== Sys2Proof/Tests/Slice0.lean ====
section
/-! SUPPORT. Tests: a word of every row decoded, one step of every instruction against 95_test_vectors.md, image loading
and the handshake, and a witness for the hypotheses of every statement. Expected values are the spec's. -/

namespace Sys2Proof.Tests

open Sys2Proof.Machine Sys2Proof.Safety

/-- The default start state of 95_test_vectors.md. -/
def start : State := { State.reset with pc := 0x80001000#64, nextPc := 0x80001004#64 }

/-- A state with its program counters at an address. -/
def placeAt (s : State) (pc : Word) : State := { s with pc := pc, nextPc := pc + 4 }

/-- The default start state with two registers written. -/
def regs (i : RegIx) (v : Word) (j : RegIx) (w : Word) : State := (start.writeReg i v).writeReg j w

/-- A word stored big-endian in `working`. -/
def withWorking (s : State) (o : Nat) (v : Word32) : State := { s with working := s.working.writeWord o v }

/-- Bytes stored in `image`. -/
def withImage (s : State) (o : Nat) (bs : List Byte) : State := { s with image := s.image.writeBytes o bs }

/-- Whether the step of a word at `pc` answers a next state with a property. -/
def after (s : State) (w : Nat) (p : State → Bool) : Bool :=
  match step (s.withFetchWord 32 w) with
  | .next t => p t
  | .fault _ => false
  | .refused _ => false

/-- Whether the program counters are at an address. -/
def atPc (a : Word) (t : State) : Bool := t.pc == a && t.nextPc == a + 4

/-- The configuration with DECODE_FUNCT19 = false. -/
def noFunct19 : Config := { Config.chosen with decodeFunct19 := false }

/-! ## Well-formedness -/

theorem test_wellFormed_accepts : (Instr.add 3#5 1#5 2#5).wellFormed Config.chosen = true := by decide
theorem test_wellFormed_refuses_multu19 : (Instr.multu19 1#5 2#5).wellFormed noFunct19 = false := by decide
theorem test_wellFormed_refuses_a_known_word : (Instr.unrecognised 0x00221820#32).wellFormed Config.chosen = false := by
  decide

/-! ## Decoding: the words of 30_encoding.md and 95_test_vectors.md -/

theorem test_decode_j : decode Config.chosen 0x08000800#32 = .j 0x800#26 := by decide
theorem test_decode_jal : decode Config.chosen 0x0C000840#32 = .jal 0x840#26 := by decide
theorem test_decode_beq : decode Config.chosen 0x10220004#32 = .beq 1#5 2#5 4#16 := by decide
theorem test_decode_bne : decode Config.chosen 0x1420FFFD#32 = .bne 1#5 0#5 0xFFFD#16 := by decide
theorem test_decode_addi : decode Config.chosen 0x20010064#32 = .addi 1#5 0#5 100#16 := by decide
theorem test_decode_addiu : decode Config.chosen 0x2401FFFF#32 = .addiu 1#5 0#5 0xFFFF#16 := by decide
theorem test_decode_andi : decode Config.chosen 0x302200FF#32 = .andi 2#5 1#5 0xFF#16 := by decide
theorem test_decode_ori : decode Config.chosen 0x3402FF00#32 = .ori 2#5 0#5 0xFF00#16 := by decide
theorem test_decode_lui_ignores_rs : decode Config.chosen 0x3C218000#32 = .lui 1#5 0x8000#16 := by decide
theorem test_decode_lw : decode Config.chosen 0x8C640100#32 = .lw 4#5 0x100#16 3#5 := by decide
theorem test_decode_sw : decode Config.chosen 0xAC620100#32 = .sw 2#5 0x100#16 3#5 := by decide
theorem test_decode_sll : decode Config.chosen 0x000117C0#32 = .sll 2#5 1#5 31#5 := by decide
theorem test_decode_srl : decode Config.chosen 0x00011102#32 = .srl 2#5 1#5 4#5 := by decide
theorem test_decode_jr : decode Config.chosen 0x03E00008#32 = .jr 31#5 := by decide
theorem test_decode_jalr : decode Config.chosen 0x0080F809#32 = .jalr 31#5 4#5 := by decide
theorem test_decode_mflo : decode Config.chosen 0x00001812#32 = .mflo 3#5 := by decide
theorem test_decode_multu : decode Config.chosen 0x00220018#32 = .multu 1#5 2#5 := by decide
theorem test_decode_multu19 : decode Config.chosen 0x00220019#32 = .multu19 1#5 2#5 := by decide
/-- AL15. -/
theorem test_decode_multu19_off : decode noFunct19 0x00220019#32 = .unrecognised 0x00220019#32 := by decide
/-- AL20: the sa field is ignored. -/
theorem test_decode_add : decode Config.chosen 0x002218E0#32 = .add 3#5 1#5 2#5 := by decide
theorem test_decode_addu : decode Config.chosen 0x00221821#32 = .addu 3#5 1#5 2#5 := by decide
theorem test_decode_sub : decode Config.chosen 0x00412022#32 = .sub 4#5 2#5 1#5 := by decide
theorem test_decode_subu : decode Config.chosen 0x00011023#32 = .subu 2#5 0#5 1#5 := by decide
theorem test_decode_and : decode Config.chosen 0x00221824#32 = .and 3#5 1#5 2#5 := by decide
theorem test_decode_or : decode Config.chosen 0x00221825#32 = .or 3#5 1#5 2#5 := by decide
/-- UN1: SYSCALL is no row. -/
theorem test_decode_unrecognised : decode Config.chosen 0x0000000C#32 = .unrecognised 0x0000000C#32 := by decide
/-- Bytes are read first byte first (R44); fewer than four are refused by name. -/
theorem test_decodeBytes : decodeBytes Config.chosen [0x20#8, 0x01#8, 0x00#8, 0x64#8, 0xAA#8] =
    .ok (.addi 1#5 0#5 100#16, [0xAA#8]) := by rfl
theorem test_decodeBytes_truncated : decodeBytes Config.chosen [0x20#8, 0x01#8, 0x00#8] = .error .truncated := by rfl
theorem test_decodeTableWord : decodeTableWord 32 0xAC620100 = some (.sw 2#5 0x100#16 3#5) := by decide
theorem test_encode : encode (.jalr 31#5 4#5) = 0x0080F809#32 := by decide

/-! ## One step of each instruction -/

/-- IM3. -/
theorem test_addi_wraps : after (regs 1 0xFFFFFFFFFFFFFFFF#64 2 0) 0x20210001 (fun t => t.readReg 1 == 0) = true := by
  decide
/-- IM4. -/
theorem test_addi_sign_extends : after start 0x20228000 (fun t => t.readReg 2 == 0xFFFFFFFFFFFF8000#64) = true := by
  decide
/-- IM8. -/
theorem test_addiu : after start 0x2421FFFF (fun t => t.readReg 1 == 0xFFFFFFFFFFFFFFFF#64) = true := by decide
/-- IM10. -/
theorem test_andi : after (regs 1 0xFFFFFFFFFFFFFFFF#64 2 0) 0x3022FFFF (fun t => t.readReg 2 == 0xFFFF#64) = true := by
  decide
/-- IM13. -/
theorem test_ori : after (regs 1 0xFFFFFFFF00000000#64 2 0) 0x34228000
    (fun t => t.readReg 2 == 0xFFFFFFFF00008000#64) = true := by decide
/-- IM15. -/
theorem test_lui : after (regs 1 5 2 0) 0x3C218000 (fun t => t.readReg 1 == 0x80000000#64) = true := by decide
/-- CT1. -/
theorem test_j : after start 0x08000800 (atPc 0x80002000#64) = true := by decide
/-- CT3: bits 63:32 of `pc` are not kept. -/
theorem test_j_region : after (placeAt start 0x180001000#64) 0x08000001 (atPc 0x80000004#64) = true := by decide
/-- CT5. -/
theorem test_jal : after (placeAt start 0xA0002000#64) 0x0C000840
    (fun t => atPc 0xA0002100#64 t && t.readReg 31 == 0xA0002008#64) = true := by decide
/-- CT8: the comparison is on all 64 bits. -/
theorem test_beq_not_taken : after (regs 1 0xFFFFFFFF#64 2 0xFFFFFFFFFFFFFFFF#64) 0x10220004
    (atPc 0x80001004#64) = true := by decide
/-- CT10: the target wraps modulo 2^64. -/
theorem test_beq_wraps : after (placeAt start 0#64) 0x1000FFFE (atPc 0xFFFFFFFFFFFFFFFC#64) = true := by decide
/-- The example of R102, and the loop of program P2; row CT11 says otherwise (log entry 10). -/
theorem test_bne_taken : after (placeAt (regs 1 4 2 0) 0x80001010#64) 0x1420FFFD (atPc 0x80001008#64) = true := by
  decide
/-- CT12. -/
theorem test_bne_not_taken : after (placeAt start 0x80001010#64) 0x1420FFFD (atPc 0x80001014#64) = true := by decide
/-- CT16: all 64 bits are kept. -/
theorem test_jr : after (regs 1 0x180001000#64 2 0) 0x00200008 (atPc 0x180001000#64) = true := by decide
/-- CT19: rd = rs jumps to the old value. -/
theorem test_jalr_same_register : after (placeAt (regs 5 0x80003000#64 2 0) 0x80002000#64) 0x00A02809
    (fun t => atPc 0x80003000#64 t && t.readReg 5 == 0x80002008#64) = true := by decide
/-- CT20: a link to r0 is discarded. -/
theorem test_jalr_r0 : after (regs 4 0x80003000#64 2 0) 0x00800009
    (fun t => atPc 0x80003000#64 t && t.readReg 0 == 0) = true := by decide
/-- LD2: zero-extended. -/
theorem test_lw : after (withWorking (regs 3 0x80000000#64 2 0) 0x100 0x80000001#32) 0x8C640100
    (fun t => t.readReg 4 == 0x80000001#64) = true := by decide
/-- LD5: unaligned, from the image window. -/
theorem test_lw_window_unaligned :
    after (withImage (regs 1 0x10000000#64 2 0) 0 [0x80#8, 0x37#8, 0x12#8, 0x40#8, 0xAA#8, 0xBB#8, 0xCC#8, 0xDD#8])
      0x8C220002 (fun t => t.readReg 2 == 0x1240AABB#64) = true := by decide
/-- ST2: unaligned; the bytes beside are unchanged. -/
theorem test_sw_unaligned : after (regs 3 0x80000000#64 2 0x11223344#64) 0xAC620101
    (fun t => t.working.readWord 0x101 == 0x11223344#32 && t.working.readByte 0x100 == 0 &&
      t.working.readByte 0x105 == 0) = true := by decide
/-- ST6: a store across the end of `working` is discarded whole. -/
theorem test_sw_edge : after (withWorking (regs 1 0x807FFFFD#64 2 0xFFFFFFFF#64) 0x7FFFFC 0x01020304#32) 0xAC220000
    (fun t => t.working.readWord 0x7FFFFC == 0x01020304#32) = true := by decide
/-- AL2: a 64-bit shift. -/
theorem test_sll : after (regs 1 0x100000003#64 2 0) 0x000117C0 (fun t => t.readReg 2 == 0x8000000180000000#64) = true := by
  decide
/-- AL6: a 64-bit logical shift. -/
theorem test_srl : after (regs 1 0xFFFFFFFFFFFFFFFF#64 2 0) 0x000117C2 (fun t => t.readReg 2 == 0x1FFFFFFFF#64) = true := by
  decide
/-- V2, its second step. -/
theorem test_mflo : after (start.setHiLo 0 0x4E20#64) 0x00001812 (fun t => t.readReg 3 == 20000#64) = true := by decide
/-- AL12. -/
theorem test_multu : after (regs 1 0x123456789#64 2 0x10#64) 0x00220018
    (fun t => t.hi == 0x12#64 && t.lo == 0x34567890#64) = true := by decide
/-- AL14. -/
theorem test_multu19 : after (regs 1 100#64 2 200#64) 0x00220019 (fun t => t.hi == 0 && t.lo == 0x4E20#64) = true := by
  decide
/-- AL17: no trap, no sign extension. -/
theorem test_add : after (regs 1 0x7FFFFFFF#64 2 1#64) 0x00221820 (fun t => t.readReg 3 == 0x80000000#64) = true := by
  decide
/-- AL21. -/
theorem test_addu : after (regs 1 0xFFFFFFFFFFFFFFFF#64 2 2#64) 0x00221821 (fun t => t.readReg 3 == 1) = true := by
  decide
/-- AL22. -/
theorem test_sub : after (regs 1 100#64 2 0xFF00#64) 0x00412022 (fun t => t.readReg 4 == 0xFE9C#64) = true := by decide
/-- AL25. -/
theorem test_subu : after (regs 1 1#64 2 0) 0x00011023 (fun t => t.readReg 2 == 0xFFFFFFFFFFFFFFFF#64) = true := by
  decide
/-- AL26. -/
theorem test_and : after (regs 1 0xFFFF0000FFFF0000#64 2 0xF0F0F0F0F0F0F0F0#64) 0x00221824
    (fun t => t.readReg 3 == 0xF0F00000F0F00000#64) = true := by decide
/-- AL28. -/
theorem test_or : after (regs 1 0xFFFF0000FFFF0000#64 2 0xF0F0F0F0F0F0F0F0#64) 0x00221825
    (fun t => t.readReg 3 == 0xFFFFF0F0FFFFF0F0#64) = true := by decide
/-- UN1: SYSCALL takes no trap. -/
theorem test_unrecognised : after start 0x0000000C (fun t => atPc 0x80001004#64 t && t.cycles == 1) = true := by decide

/-! ## Image loading and the handshake -/

/-- LI2. -/
theorem test_load_too_short : (start.loadImage [0x80#8, 1#8, 2#8]).1 = .err .tooShort := by decide
/-- LI3. -/
theorem test_load_bad_magic : (start.loadImage [0x12#8, 0#8, 0#8, 0#8]).1 = .err .badMagic := by decide
/-- LI5. -/
theorem test_load_too_large : (start.loadImage (0x80#8 :: List.replicate imageSize 0#8)).1 = .err .tooLarge := by
  have h : imageSize < (0x80#8 :: List.replicate imageSize 0#8).length := by
    rw [List.length_cons, List.length_replicate]; exact Nat.lt_succ_self _
  generalize hl : List.replicate imageSize 0#8 = l at h
  have h4 : 3 < imageSize := by decide
  match l, h with
  | _ :: _ :: _ :: _, h => simp only [State.loadImage, magicOrder, if_pos h, if_pos trivial]
  | [], h => simp at h; omega
  | [_], h => simp at h; omega
  | [_, _], h => simp at h; omega
/-- LI8: whole groups reversed, the partial group copied. -/
theorem test_load_swapped :
    (start.loadImage [0x37#8, 0x80#8, 0x40#8, 0x12#8, 0x11#8, 0x22#8]).2.image =
      [(0, 0x12#8), (1, 0x40#8), (2, 0x80#8), (3, 0x37#8), (4, 0x11#8), (5, 0x22#8)] := by decide
/-- LI9. -/
theorem test_load_little :
    (start.loadImage [0x40#8, 0x12#8, 0x37#8, 0x80#8, 0xEF#8, 0xBE#8, 0xAD#8, 0xDE#8, 0x99#8]).2.image =
      [(0, 0x80#8), (1, 0x37#8), (2, 0x12#8), (3, 0x40#8), (4, 0xDE#8), (5, 0xAD#8), (6, 0xBE#8), (7, 0xEF#8),
        (8, 0x99#8)] := by decide
/-- HS3, from the normalised image. -/
theorem test_handshake : atPc 0x80001000#64
    ((withImage start 0x34 [0x80#8, 0x00#8, 0x10#8, 0x00#8]).handshake Config.chosen 0x39) = true := by decide
/-- HS2. -/
theorem test_handshake_default : (start.handshake Config.chosen 0x38).pc = Config.chosen.defaultEntry.setWidth 64 := by
  rfl

/-! ## Witnesses: each meets the hypotheses of the statement it names -/

/-- The default start state with a word at `pc`. -/
def placed (w : Word32) : State := withWorking start 0x1000 w

theorem witness_StepRunsTheDecodedInstruction :
    (placed 0x20010064#32).wasReset = true ∧
      decode Config.chosen (placed 0x20010064#32).fetch = .addi 1#5 0#5 100#16 ∧
      exec (.addi 1#5 0#5 100#16) (placed 0x20010064#32) = .next ((placed 0x20010064#32).writeReg 1#5 100#64) :=
  ⟨rfl, by decide, rfl⟩

theorem witness_StepAlwaysCompletes : (placed 0x0000000C#32).wasReset = true := rfl

theorem witness_LaunchStatesStepToLaunchStates : Launch (placed 0x20010064#32) :=
  ⟨by decide, rfl, by decide, by decide⟩

theorem witness_StepBeforeResetIsRefused : (State.construct Config.chosen).wasReset = false := rfl

/-- A word written to r0 by hand is gone after the step. -/
theorem witness_EveryStepRepinsAndCounts :
    ∃ t, stepWith Config.chosen { placed 0x20000005#32 with x := Vector.replicate 32 9#64 } = .next t := ⟨_, rfl⟩

theorem witness_StepIgnoresTheRunFlag :
    ∃ t, stepWith Config.chosen (placed 0x00220018#32) = .next t := ⟨_, rfl⟩

theorem witness_StepDependsOnlyOnTheRunState :
    AgreeOnRunState (placed 0x00001812#32) { placed 0x00001812#32 with hi := 7#64, running := true } ∧
      ∃ t, stepWith Config.chosen (placed 0x00001812#32) = .next t :=
  ⟨⟨rfl, rfl, rfl, rfl, rfl, rfl, rfl, rfl⟩, _, rfl⟩

theorem witness_EveryStepKeepsTheInvariant :
    Inv (placed 0xAC620100#32) ∧ ∃ t, step (placed 0xAC620100#32) = .next t :=
  ⟨⟨by decide, by decide, by decide, by decide, by decide, by decide⟩, _, rfl⟩

theorem witness_EveryHostRunKeepsTheInvariant :
    Inv start ∧ (∃ t, runHost Config.chosen [.reset, .step, .loadImage [0x80#8, 0x37#8, 0x12#8, 0x40#8],
        .handshake 4, .readState, .setRunning true] start = .next t) ∧
      Memory.wf workingSize Config.chosen.initWorking = true ∧ Memory.wf imageSize Config.chosen.initImage = true :=
  ⟨⟨by decide, by decide, by decide, by decide, by decide, by decide⟩, ⟨_, rfl⟩, by decide, by decide⟩

theorem witness_CyclesCountStepsSinceReset :
    (∃ t, runHost Config.chosen [.step, .reset, .step, .step] start = .next t) ∧
      stepsSinceReset start.cycles [.step, .reset, .step, .step] = 2 := ⟨⟨_, rfl⟩, by decide⟩

/-- LI7: the contents and the tag change. -/
theorem witness_OnlyALoadChangesTheImage :
    ∃ p, hostOp Config.chosen (.loadImage [0x80#8, 0x37#8, 0x12#8, 0x40#8, 0xAA#8]) start = .next p ∧
      p.2.image ≠ start.image ∧ p.2.imageByteOrder ≠ start.imageByteOrder := ⟨_, rfl, by decide, by decide⟩

/-- ST2's word, from its start state. -/
theorem witness_OnlyStoreWordChangesWorking :
    ∃ p, hostOp Config.chosen .step (withWorking (regs 3 0x80000000#64 2 0x11223344#64) 0x1000 0xAC620101#32) = .next p ∧
      p.2.working ≠ (withWorking (regs 3 0x80000000#64 2 0x11223344#64) 0x1000 0xAC620101#32).working :=
  ⟨_, rfl, by decide⟩

/-- AL11 changes `hi`, AL14 changes `lo`. -/
theorem witness_OnlyMultiplyChangesHiLo :
    (∃ t, stepWith Config.chosen (withWorking (regs 1 0x100000000#64 2 3#64) 0x1000 0x00220018#32) = .next t ∧
      t.hi ≠ 0#64) ∧
    ∃ t, stepWith Config.chosen (withWorking (regs 1 100#64 2 200#64) 0x1000 0x00220019#32) = .next t ∧ t.lo ≠ 0#64 :=
  ⟨⟨_, rfl, by decide⟩, _, rfl, by decide⟩

theorem witness_OnlyControlTransfersRedirect :
    (∃ t, stepWith Config.chosen (placed 0x00221820#32) = .next t) ∧
      isControlTransfer (decode Config.chosen (placed 0x00221820#32).fetch) = false := ⟨⟨_, rfl⟩, by decide⟩

/-- Program P5's store: SW r2, 0(r1) over the word that follows it. -/
theorem witness_StoreIsSeenByTheNextFetch :
    (withWorking (regs 1 0x80001004#64 2 0x2409002A#64) 0x1000 0xAC220000#32).wasReset = true ∧
      decode Config.chosen (withWorking (regs 1 0x80001004#64 2 0x2409002A#64) 0x1000 0xAC220000#32).fetch =
        .sw 2#5 0#16 1#5 ∧
      workingOffset (addressOf (withWorking (regs 1 0x80001004#64 2 0x2409002A#64) 0x1000 0xAC220000#32) 1#5 0#16
        % 2 ^ 32) = some 0x1004 ∧
      workingOffset (start.nextPc.toNat % 2 ^ 32) = some 0x1004 := ⟨rfl, by decide, by decide, by decide⟩

/-- SQ2's address, and the addresses just past both buffers. -/
theorem witness_UnbackedFetchRunsTheNoOp :
    ∀ a ∈ [0xBFC00000, 0x807FFFFD, 0x13FFFFFD, 0x0FFFFFFF],
      (placeAt start (BitVec.ofNat 64 a)).wasReset = true ∧
      imageOffset ((placeAt start (BitVec.ofNat 64 a)).pc.toNat % 2 ^ 32) = none ∧
      workingOffset ((placeAt start (BitVec.ofNat 64 a)).pc.toNat % 2 ^ 32) = none := by decide

/-- One `pc` for each clause, at the ends of the buffers. -/
theorem witness_PlacedWordIsFetched :
    imageOffset ((placeAt start 0x13FFFFFC#64).pc.toNat % 2 ^ 32) = some 0x3FFFFFC ∧
      workingOffset ((placeAt start 0x807FFFFC#64).pc.toNat % 2 ^ 32) = some 0x7FFFFC ∧
      imageOffset ((placeAt start 0x13FFFFFD#64).pc.toNat % 2 ^ 32) = none ∧
      workingOffset ((placeAt start 0x13FFFFFD#64).pc.toNat % 2 ^ 32) = none := by decide

/-- The state at the stop address 0x8000_1004, which holds CT9's loop (BEQ) or its J. -/
def looping (w : Word32) : State := withWorking (placeAt start 0x80001004#64) 0x1004 w

theorem witness_RunPastTheStopOnlyCounts_jump :
    StopsAfter 0x80001004#64 1 (withWorking start 0x1004 0x08000401#32) { looping 0x08000401#32 with cycles := 1 } ∧
      Inv { looping 0x08000401#32 with cycles := 1 } ∧ (looping 0x08000401#32).wasReset = true ∧
      AtSelfLoop { looping 0x08000401#32 with cycles := 1 } := by
  refine ⟨⟨rfl, rfl, fun j hj u hu => ?_⟩, ⟨by decide, by decide, by decide, by decide, by decide, by decide⟩, rfl,
    .inl ⟨by decide, by decide, by decide⟩⟩
  obtain rfl : j = 0 := by omega
  cases hu
  decide

theorem witness_RunPastTheStopOnlyCounts_branch :
    StopsAfter 0x80001004#64 0 (looping 0x1000FFFF#32) (looping 0x1000FFFF#32) ∧
      Inv (looping 0x1000FFFF#32) ∧ (looping 0x1000FFFF#32).wasReset = true ∧ AtSelfLoop (looping 0x1000FFFF#32) :=
  ⟨⟨rfl, rfl, fun _ hj => absurd hj (Nat.not_lt_zero _)⟩,
    ⟨by decide, by decide, by decide, by decide, by decide, by decide⟩, rfl, .inr (by decide)⟩

theorem witness_TranslateIsIdempotentAndManyToOne : (0x1FFFFFFF#32).toNat < 2 ^ 29 := by decide

theorem witness_WriteFollowsTheAddressMap :
    ∀ a ∈ [0x10000000, 0x807FFFFD, 0x800000], workingOffset (a % 2 ^ 32) = none := by decide

/-- The last word of `working` under two names, and two neighbouring words. -/
theorem witness_StoresAreReadThroughEveryAlias :
    workingOffset ((0x807FFFFC#64).toNat % 2 ^ 32) = some 0x7FFFFC ∧
      workingOffset ((0xA07FFFFC#64).toNat % 2 ^ 32) = some 0x7FFFFC ∧
      workingOffset ((0x100#64).toNat % 2 ^ 32) = some 0x100 ∧
      workingOffset ((0x80000104#64).toNat % 2 ^ 32) = some 0x104 ∧ 0x100 + 4 ≤ 0x104 := by decide

theorem witness_KernelSegmentsDoNotReachTheImage :
    (∀ a ∈ [0x90000000, 0x93FFFFFF], 0x90000000 ≤ a % 2 ^ 32 ∧ a % 2 ^ 32 ≤ 0x93FFFFFF) ∧
      ∀ a ∈ [0xB0000000, 0xB3FFFFFF], 0xB0000000 ≤ a % 2 ^ 32 ∧ a % 2 ^ 32 ≤ 0xB3FFFFFF := by decide

/-- LI1, LI2; LI3; LI5. -/
theorem witness_LoadImageRejectsInOrder :
    ([] : List Byte).length < 4 ∧ [0x80#8, 1#8, 2#8].length < 4 ∧
      (4 ≤ [0x12#8, 0#8, 0#8, 0#8].length ∧ [0x12#8, 0#8, 0#8, 0#8][0]? ≠ some 0x80#8 ∧
        [0x12#8, 0#8, 0#8, 0#8][0]? ≠ some 0x37#8 ∧ [0x12#8, 0#8, 0#8, 0#8][0]? ≠ some 0x40#8) ∧
      (4 ≤ (0x80#8 :: List.replicate imageSize 0#8).length ∧
        (0x80#8 :: List.replicate imageSize 0#8)[0]? = some 0x80#8 ∧
        imageSize < (0x80#8 :: List.replicate imageSize 0#8).length) := by
  refine ⟨by decide, by decide, ⟨by decide, by decide, by decide, by decide⟩, ?_, rfl, ?_⟩ <;>
    rw [List.length_cons, List.length_replicate] <;> unfold imageSize <;> omega

/-- Inputs of the least length, one for each byte order. -/
theorem witness_LoadImageCopiesTheNormalisedBytes :
    ∀ p ∈ [([0x80#8, 0x37#8, 0x12#8, 0x40#8], ByteOrder.nativeBig), ([0x37#8, 0x80#8, 0x40#8, 0x12#8], .byteSwapped),
        ([0x40#8, 0x12#8, 0x37#8, 0x80#8], .littleEndian)],
      4 ≤ p.1.length ∧ p.1.length ≤ imageSize ∧
        ((p.1[0]? = some 0x80#8 ∧ p.2 = .nativeBig) ∨ (p.1[0]? = some 0x37#8 ∧ p.2 = .byteSwapped) ∨
          (p.1[0]? = some 0x40#8 ∧ p.2 = .littleEndian)) := by decide

/-- LI8: an index in the whole group and one in the partial group. -/
theorem witness_NormaliseVerbatimOrSwapped :
    0 < [0x37#8, 0x80#8, 0x40#8, 0x12#8, 0x11#8, 0x22#8].length ∧
      5 < [0x37#8, 0x80#8, 0x40#8, 0x12#8, 0x11#8, 0x22#8].length := by decide

/-- The two inputs of V6. -/
theorem witness_ImageFormatsRoundTrip :
    ∀ big ∈ [[0x80#8, 0x37#8, 0x12#8, 0x40#8, 0xDE#8, 0xAD#8, 0xBE#8, 0xEF#8]],
      ∀ little ∈ [[0x40#8, 0x12#8, 0x37#8, 0x80#8, 0xEF#8, 0xBE#8, 0xAD#8, 0xDE#8]],
        4 ≤ big.length ∧ big.length ≤ imageSize ∧ big.length % 4 = 0 ∧ big[0]? = some 0x80#8 ∧
          big[3]? = some 0x40#8 ∧ little.length = big.length ∧
          ∀ o, o < big.length → little[o]? = big[mirroredIndex big.length o]? := by decide

theorem witness_UnrecognisedWordsAreNoOps :
    (placed 0xFFFFFFFF#32).wasReset = true ∧
      decode Config.chosen (placed 0xFFFFFFFF#32).fetch = .unrecognised 0xFFFFFFFF#32 := ⟨rfl, by decide⟩

theorem witness_JumpTakesEffectOnTheNextFetch :
    (placed 0x08000800#32).wasReset = true ∧ decode Config.chosen (placed 0x08000800#32).fetch = .j 0x800#26 :=
  ⟨rfl, by decide⟩

theorem witness_DecodeOfEncodeIsTheInstruction :
    (Instr.sw 31#5 0xFFFF#16 31#5).wellFormed Config.chosen = true ∧
      (Instr.multu19 31#5 0#5).wellFormed Config.chosen = true ∧
      (Instr.unrecognised 0xFFFFFFFF#32).wellFormed Config.chosen = true := by decide

/-- A word of row ADD, and a word of no row. -/
theorem witness_OpcodeTableSelectsTheMnemonic :
    (∃ row ∈ opcodeRows Config.chosen, 0x002218E0#32 &&& row.mask = row.pattern) ∧
      ∀ row ∈ opcodeRows Config.chosen, 0x0000000C#32 &&& row.mask ≠ row.pattern := by decide

/-- Two words of funct 0x20 whose other fields all differ. -/
theorem witness_OnlyOpAndFunctSelect :
    bits (0x00221820#32).toNat 31 26 = bits (0x03FFFFE0#32).toNat 31 26 ∧
      bits (0x00221820#32).toNat 5 0 = bits (0x03FFFFE0#32).toNat 5 0 := by decide

end Sys2Proof.Tests
end

section
/-! The registers (00_scope.md R13, 40_step.md R86). -/

namespace Sys2Proof.Machine

/-- A write to register 0 is discarded whole: the state, not only its registers, is the old one (R86). -/
@[simp] theorem State.writeReg_zero (s : State) (v : Word) : s.writeReg 0#5 v = s := by
  rw [State.writeReg, if_pos rfl]

/-- Settles O21: the discarded write, and the read after a write. -/
theorem registerZeroDiscardsWrites : Obligations.RegisterZeroDiscardsWrites :=
  fun s i r v => ⟨State.writeReg_zero s v, State.readReg_writeReg s i r v⟩

end Sys2Proof.Machine
end

section
/-! What one step can do, from every state (40_step.md R80, R83): the inversion lemmas the invariants of 10_state.md
are read off. -/

namespace Sys2Proof.Machine

open Sys2Proof.Safety

variable {c : Config} {s t : State}

/-- An execute phase writes one register (r0 for none) and `nextPc`, which only a control transfer changes; or it stores
a word; or it multiplies. -/
theorem exec_cases {i : Instr} (h : exec i s = .next t) :
    (∃ rd v n, (isControlTransfer i = false → n = s.nextPc) ∧ t = (s.writeReg rd v).setNextPc n) ∨
      (∃ rt imm rs, i = .sw rt imm rs ∧ t = s.write32 (s.effectiveAddress rs imm) (s.readReg rt)) ∨
      ∃ rs rt, (i = .multu rs rt ∨ i = .multu19 rs rt) ∧ t = multiplyUnsigned rs rt s := by
  cases i with
  | sw rt imm rs => cases h; exact .inr (.inl ⟨rt, imm, rs, rfl, rfl⟩)
  | multu rs rt => cases h; exact .inr (.inr ⟨rs, rt, .inl rfl, rfl⟩)
  | multu19 rs rt => cases h; exact .inr (.inr ⟨rs, rt, .inr rfl, rfl⟩)
  | j | beq | bne | jr => cases h; exact .inl ⟨0#5, 0#64, _, nofun, by rw [State.writeReg_zero]⟩
  | jal | jalr => cases h; exact .inl ⟨_, _, _, nofun, rfl⟩
  | unrecognised => cases h; exact .inl ⟨0#5, 0#64, _, fun _ => rfl, by rw [State.writeReg_zero]; rfl⟩
  | addi | addiu | andi | ori | lui | lw | sll | srl | mflo | add | addu | sub | subu | and | or =>
    cases h; exact .inl ⟨_, _, _, fun _ => rfl, rfl⟩

/-- A step commits one of the three effects of an execute phase, and the word fetched says which. -/
theorem stepWith_cases (h : stepWith c s = .next t) :
    (∃ rd v n, (isControlTransfer (decode c s.fetch) = false → n = s.nextPc) ∧
        t = ((s.writeReg rd v).setNextPc n).commit) ∨
      (∃ rt imm rs, decode c s.fetch = .sw rt imm rs ∧
        t = (s.write32 (s.effectiveAddress rs imm) (s.readReg rt)).commit) ∨
      ∃ rs rt, (decode c s.fetch = .multu rs rt ∨ decode c s.fetch = .multu19 rs rt) ∧
        t = (multiplyUnsigned rs rt s).commit := by
  obtain ⟨-, u, hu, rfl⟩ := (stepWith_next_iff c s t).mp h
  obtain ⟨rd, v, n, hn, rfl⟩ | ⟨rt, imm, rs, hi, rfl⟩ | ⟨rs, rt, hi, rfl⟩ := exec_cases hu
  · exact .inl ⟨rd, v, n, hn, rfl⟩
  · exact .inr (.inl ⟨rt, imm, rs, hi, rfl⟩)
  · exact .inr (.inr ⟨rs, rt, hi, rfl⟩)

/-- A step counts 1 and leaves the image and its tag alone (R26, R31, R32). -/
theorem stepWith_cycles_image (h : stepWith c s = .next t) :
    t.cycles = s.cycles + 1 ∧ t.image = s.image ∧ t.imageByteOrder = s.imageByteOrder := by
  obtain ⟨_, _, _, -, rfl⟩ | ⟨_, _, _, -, rfl⟩ | ⟨_, _, -, rfl⟩ := stepWith_cases h
  all_goals exact ⟨rfl, rfl, rfl⟩

/-- A step that changes `working` executes SW (R30). -/
theorem stepWith_working_eq_or_sw (h : stepWith c s = .next t) :
    t.working = s.working ∨ ∃ rt imm rs, decode c s.fetch = .sw rt imm rs := by
  obtain ⟨rd, v, n, -, rfl⟩ | ⟨rt, imm, rs, hsw, -⟩ | ⟨rs, rt, -, rfl⟩ := stepWith_cases h
  · exact .inl rfl
  · exact .inr ⟨rt, imm, rs, hsw⟩
  · exact .inl rfl

/-- Settles O15: of the three effects of a step only the product writes `hi` and `lo`. -/
theorem onlyMultiplyChangesHiLo : Obligations.OnlyMultiplyChangesHiLo := by
  intro c s t h hne
  obtain ⟨rd, v, n, -, rfl⟩ | ⟨rt, imm, rs, -, rfl⟩ | ⟨rs, rt, hmul, -⟩ := stepWith_cases h
  · simp at hne
  · simp at hne
  · exact ⟨rs, rt, hmul⟩

end Sys2Proof.Machine
end

section
/-! The host's operations one by one, and the induction over a run of them (70_reset_and_hazards.md R138, R140). -/

namespace Sys2Proof.Machine

open Sys2Proof.Safety

variable {c : Config} {s : State}

/-- The host's step is the step, without a reply. -/
theorem hostOp_step_next_iff {p : HostReply × State} :
    hostOp c .step s = .next p ↔ ∃ t, stepWith c s = .next t ∧ p = (.nothing, t) := by
  cases h : stepWith c s <;> simp [hostOp, h, eq_comm]

/-- A load answers Ok of the number of bytes and writes `image` and its tag alone, or it answers an error and changes
nothing (R55, R59, R61). -/
theorem State.loadImage_cases (s : State) (raw : List Byte) :
    (∃ image order, s.loadImage raw = (.ok raw.length, { s with image := image, imageByteOrder := order })) ∨
      ∃ e, s.loadImage raw = (.err e, s) := by
  unfold State.loadImage
  split
  · split
    · exact .inr ⟨_, rfl⟩
    · split
      · exact .inr ⟨_, rfl⟩
      · exact .inl ⟨_, _, rfl⟩
  · exact .inr ⟨_, rfl⟩

@[simp] theorem State.loadImage_working (raw : List Byte) : (s.loadImage raw).2.working = s.working := by
  obtain ⟨_, _, h⟩ | ⟨_, h⟩ := s.loadImage_cases raw <;> rw [h]

@[simp] theorem State.loadImage_cycles (raw : List Byte) : (s.loadImage raw).2.cycles = s.cycles := by
  obtain ⟨_, _, h⟩ | ⟨_, h⟩ := s.loadImage_cases raw <;> rw [h]

/-- A run that completes is its first operation followed by the run of the rest. -/
theorem runHost_cons_next_iff {op : HostOp} {ops : List HostOp} {t : State} :
    runHost c (op :: ops) s = .next t ↔ ∃ p, hostOp c op s = .next p ∧ runHost c ops p.2 = .next t := by
  cases h : hostOp c op s <;> simp [runHost, h]

/-- What every host operation keeps, every run of them keeps. -/
theorem runHost_induction {P : State → Prop}
    (hop : ∀ (op : HostOp) (s : State) (p : HostReply × State), P s → hostOp c op s = .next p → P p.2)
    {ops : List HostOp} {t : State} (hs : P s) (h : runHost c ops s = .next t) : P t := by
  induction ops generalizing s with
  | nil => cases h; exact hs
  | cons op ops ih =>
    obtain ⟨p, hp, hrest⟩ := runHost_cons_next_iff.mp h
    exact ih (hop op s p hs hp) hrest

/-- Settles O12: a step keeps the image and its tag, and every other operation but a load that answers Ok does so
by its definition. -/
theorem onlyALoadChangesTheImage : Obligations.OnlyALoadChangesTheImage := by
  intro c op s p h hne
  cases op with
  | step =>
    obtain ⟨t, ht, rfl⟩ := hostOp_step_next_iff.mp h
    obtain ⟨-, himage, horder⟩ := stepWith_cycles_image ht
    simp [himage, horder] at hne
  | loadImage raw =>
    cases h
    obtain ⟨_, _, hok⟩ | ⟨e, herr⟩ := s.loadImage_cases raw
    · exact ⟨raw, rfl, by rw [hok]⟩
    · simp [herr] at hne
  | reset | handshake | readState | setRunning => cases h; simp at hne

/-- Settles O13: a step that changes `working` executes SW, and no other operation changes it. -/
theorem onlyStoreWordChangesWorking : Obligations.OnlyStoreWordChangesWorking := by
  intro c op s p h hne
  cases op with
  | step =>
    obtain ⟨t, ht, rfl⟩ := hostOp_step_next_iff.mp h
    exact ⟨rfl, (stepWith_working_eq_or_sw ht).resolve_left hne⟩
  | reset | loadImage | handshake | readState | setRunning => cases h; simp at hne

/-- Settles O14: the fields of the driver's write of `running`. -/
theorem driverReadsAndSetsTheRunFlag : Obligations.DriverReadsAndSetsTheRunFlag :=
  fun _ s b => ⟨rfl, s.setRunning b, rfl, by simp⟩

/-- The count of a run splits after its first operation. -/
theorem stepsSinceReset_cons (n : Nat) (op : HostOp) (ops : List HostOp) :
    stepsSinceReset n (op :: ops) = stepsSinceReset (stepsSinceReset n [op]) ops := by
  cases op <;> rfl

/-- Each host operation changes `cycles` as the count says: a reset to 0, a step by 1, any other not at all. -/
theorem hostOp_cycles {op : HostOp} {p : HostReply × State} (h : hostOp c op s = .next p) :
    p.2.cycles = stepsSinceReset s.cycles [op] := by
  cases op with
  | step =>
    obtain ⟨t, ht, rfl⟩ := hostOp_step_next_iff.mp h
    exact (stepWith_cycles_image ht).1
  | loadImage raw => cases h; exact State.loadImage_cycles raw
  | reset | handshake | readState | setRunning => cases h; rfl

/-- Settles O11, by induction on the run. -/
theorem cyclesCountStepsSinceReset : Obligations.CyclesCountStepsSinceReset := by
  intro c ops s t h
  induction ops generalizing s with
  | nil => cases h; rfl
  | cons op ops ih =>
    obtain ⟨p, hp, hrest⟩ := runHost_cons_next_iff.mp h
    rw [ih p.2 hrest, hostOp_cycles hp, ← stepsSinceReset_cons]

end Sys2Proof.Machine
end

section
/-! The invariant of 10_state.md R36, held at reset and at construction and kept by every step and host operation. -/

namespace Sys2Proof.Machine

open Sys2Proof.Safety

variable {c : Config} {s t : State}

/-- The end of a step restores r0 and `nextPc`, so only the bounds and the buffers are left to show (R87, R88). -/
theorem inv_commit (hhi : s.hi.toNat < 2 ^ 32) (hlo : s.lo.toNat < 2 ^ 32)
    (hworking : Memory.wf workingSize s.working = true) (himage : Memory.wf imageSize s.image = true) :
    Inv s.commit where
  regZero := State.readReg_commit s 0#5
  nextPc := rfl
  hiBelow := hhi
  loBelow := hlo
  working := hworking
  image := himage

/-- A word masked to its low 32 bits, as MULTU writes `hi` and `lo`, is below 2^32 (R25, R112). -/
theorem toNat_and_low32_lt (v : Word) : (v &&& 0xFFFFFFFF#64).toNat < 2 ^ 32 :=
  Nat.lt_of_le_of_lt Nat.and_le_right (by decide)

/-- Every step, under every configuration, keeps the invariant. -/
theorem inv_stepWith (hs : Inv s) (h : stepWith c s = .next t) : Inv t := by
  obtain ⟨rd, v, n, -, rfl⟩ | ⟨rt, imm, rs, -, rfl⟩ | ⟨rs, rt, -, rfl⟩ := stepWith_cases h
  · exact inv_commit hs.hiBelow hs.loBelow hs.working hs.image
  · exact inv_commit hs.hiBelow hs.loBelow (storeWorking_wf _ _ hs.working) hs.image
  · exact inv_commit (toNat_and_low32_lt _) (toNat_and_low32_lt _) hs.working hs.image

/-- Settles O8: `step` is the step under the chosen configuration. -/
theorem everyStepKeepsTheInvariant : Obligations.EveryStepKeepsTheInvariant :=
  ⟨fun _ _ => inv_stepWith, fun _ _ _ => inv_stepWith⟩

/-- A register of a cleared file reads 0. -/
theorem State.readReg_of_x_eq_replicate (hx : s.x = Vector.replicate 32 0#64) (r : RegIx) :
    s.readReg r = 0#64 := by
  simp [State.readReg, hx]

/-- The reset values meet the invariant over canonical buffers (R34). -/
theorem inv_of_reset_values (hx : s.x = Vector.replicate 32 0#64) (hnext : s.nextPc = s.pc + 4)
    (hhi : s.hi = 0#64) (hlo : s.lo = 0#64) (hworking : Memory.wf workingSize s.working = true)
    (himage : Memory.wf imageSize s.image = true) : Inv s where
  regZero := State.readReg_of_x_eq_replicate hx 0#5
  nextPc := hnext
  hiBelow := by rw [hhi]; decide
  loBelow := by rw [hlo]; decide
  working := hworking
  image := himage

/-- `reset()` establishes the invariant wherever the buffers are canonical (R134). -/
theorem inv_hostReset (hworking : Memory.wf workingSize s.working = true)
    (himage : Memory.wf imageSize s.image = true) : Inv (s.hostReset c) :=
  inv_of_reset_values rfl rfl rfl rfl hworking himage

/-- Construction over canonical buffers meets the invariant (log entry 6). -/
theorem inv_construct (hworking : Memory.wf workingSize c.initWorking = true)
    (himage : Memory.wf imageSize c.initImage = true) : Inv (State.construct c) :=
  inv_of_reset_values rfl rfl rfl rfl hworking himage

/-- A load writes `image` and its tag alone, and keeps the canonical form. -/
theorem inv_loadImage (hs : Inv s) (raw : List Byte) : Inv (s.loadImage raw).2 := by
  have himage := State.loadImage_wf raw hs.image
  obtain ⟨image, order, h⟩ | ⟨e, h⟩ := s.loadImage_cases raw <;> rw [h] at himage ⊢
  · exact { hs with image := himage }
  · exact hs

/-- Every host operation keeps the invariant. -/
theorem inv_hostOp (op : HostOp) (s : State) (p : HostReply × State) (hs : Inv s)
    (h : hostOp c op s = .next p) : Inv p.2 := by
  cases op with
  | reset => cases h; exact inv_hostReset hs.working hs.image
  | step =>
    obtain ⟨t, ht, rfl⟩ := hostOp_step_next_iff.mp h
    exact inv_stepWith hs ht
  | loadImage raw => cases h; exact inv_loadImage hs raw
  | handshake n => cases h; exact { hs with nextPc := rfl }
  | readState => cases h; exact hs
  | setRunning b => cases h; exact { hs with }

/-- Settles O10, by the induction over a run. -/
theorem everyHostRunKeepsTheInvariant : Obligations.EveryHostRunKeepsTheInvariant :=
  ⟨fun _ _ _ _ => runHost_induction inv_hostOp, fun _ => inv_construct⟩

/-- Settles O9: `State.reset` is what `reset()` leaves of the constructed block, so it meets the invariant. -/
theorem resetStateMeetsTheInvariant : Obligations.ResetStateMeetsTheInvariant := by
  have hreset : (State.construct Config.chosen).hostReset Config.chosen = State.reset := rfl
  have hinv : Inv State.reset := hreset ▸ inv_hostReset rfl rfl
  have hsegment : Config.chosen.ResetVectorInSegment := by decide
  exact ⟨hinv, State.readReg_of_x_eq_replicate rfl, rfl, rfl, rfl, rfl, rfl, rfl, hsegment, hreset⟩

end Sys2Proof.Machine
end

section
/-! The address map of 20_memory.md R51 against `translate` and the two windows (R40 to R45). -/

namespace Sys2Proof.Machine

open Sys2Proof.Safety

/-- Translation as a number: the low 29 bits of a kernel-segment address (R40). -/
theorem translate_toNat (a : Word32) :
    (translate a).toNat =
      if 0x80000000 ≤ a.toNat ∧ a.toNat ≤ 0xBFFFFFFF then a.toNat % 2 ^ 29 else a.toNat := by
  unfold translate
  split
  · exact Nat.and_two_pow_sub_one_eq_mod a.toNat 29
  · rfl

/-- Settles O22: masking to 29 bits is the remainder modulo 2^29. -/
theorem translateMasksTheKernelSegments : Obligations.TranslateMasksTheKernelSegments :=
  translate_toNat

/-- No translated address lies in the kernel segments (R41). -/
theorem translate_outside_kernel (a : Word32) :
    (translate a).toNat < 0x80000000 ∨ 0xC0000000 ≤ (translate a).toNat := by
  rw [translate_toNat]
  split <;> omega

/-- An address outside the kernel segments passes through (R40). -/
theorem translate_eq_self {a : Word32} (h : a.toNat < 0x80000000 ∨ 0xC0000000 ≤ a.toNat) : translate a = a :=
  if_neg (by omega)

/-- An offset below 2^29 under the base of a kernel segment translates to itself (R41). -/
theorem translate_add_kernel_base {p base : Word32} (hp : p.toNat < 2 ^ 29)
    (hbase : base.toNat = 0x80000000 ∨ base.toNat = 0xA0000000) : translate (p + base) = p := by
  apply BitVec.eq_of_toNat_eq
  rw [translate_toNat, BitVec.toNat_add, if_pos (by omega)]
  omega

/-- Settles O23: a translated address lies outside the kernel segments, where translation is the identity, and the
two kernel names of an offset are masked to it. -/
theorem translateIsIdempotentAndManyToOne : Obligations.TranslateIsIdempotentAndManyToOne :=
  ⟨fun a => ⟨translate_eq_self (translate_outside_kernel a), translate_outside_kernel a⟩, fun _ hp =>
    ⟨translate_eq_self (.inl (by omega)), translate_add_kernel_base hp (.inl rfl),
      translate_add_kernel_base hp (.inr rfl)⟩⟩

/-- The offset of a window address, as a number (R42). -/
theorem windowOffset_eq (a : Word32) : windowOffset a = a.toNat - 0x10000000 := rfl

/-- The rows of R51 that reach `working` are the addresses whose translation has its four bytes in it (R43, R45). -/
theorem workingOffset_eq_some_iff (a : Word32) (o : Nat) :
    workingOffset a.toNat = some o ↔
      inBounds (translate a).toNat workingSize = true ∧ (translate a).toNat = o := by
  rw [inBounds_iff, translate_toNat, workingOffset, workingSize]
  have := a.isLt
  split_ifs <;> simp only [Option.some.injEq, false_iff] <;> omega

/-- The row of R51 that reaches `image` is the window without its last three addresses (R42, R43). -/
theorem imageOffset_eq_some_iff (a : Word32) (o : Nat) :
    imageOffset a.toNat = some o ↔
      (inWindow a = true ∧ inBounds (windowOffset a) imageSize = true) ∧ windowOffset a = o := by
  rw [inWindow_iff, inBounds_iff, windowOffset_eq, imageOffset, imageSize]
  split_ifs <;> simp only [Option.some.injEq, false_iff] <;> omega

/-- Where the map reaches no offset of `working`, the translated address is out of bounds. -/
theorem workingOffset_eq_none_iff (a : Word32) :
    workingOffset a.toNat = none ↔ inBounds (translate a).toNat workingSize = false := by
  simp [Option.eq_none_iff_forall_ne_some, workingOffset_eq_some_iff]

/-- Where the map reaches no offset of `image`, the address is outside the window or among its last three. -/
theorem imageOffset_eq_none_iff (a : Word32) :
    imageOffset a.toNat = none ↔ ¬(inWindow a = true ∧ inBounds (windowOffset a) imageSize = true) := by
  simp [Option.eq_none_iff_forall_ne_some, imageOffset_eq_some_iff]

/-- The image window and the names of `working` do not meet (R51). -/
theorem inWindow_eq_false_of_workingOffset {a : Word32} {o : Nat} (h : workingOffset a.toNat = some o) :
    inWindow a = false := by
  rw [← Bool.not_eq_true, inWindow_iff]
  unfold workingOffset at h
  split_ifs at h <;> omega

/-- The kernel-segment names of the window's numbers reach neither buffer (R52). -/
theorem offsets_eq_none_of_kernel_window {a : Nat}
    (h : (0x90000000 ≤ a ∧ a ≤ 0x93FFFFFF) ∨ (0xB0000000 ≤ a ∧ a ≤ 0xB3FFFFFF)) :
    imageOffset a = none ∧ workingOffset a = none := by
  have hnames : ¬a ≤ 0x007FFFFC ∧ ¬(0x80000000 ≤ a ∧ a ≤ 0x807FFFFC) ∧ ¬(0xA0000000 ≤ a ∧ a ≤ 0xA07FFFFC) := by
    omega
  obtain ⟨hlow, hcached, huncached⟩ := hnames
  exact ⟨if_neg (by omega), by rw [workingOffset, if_neg hlow, if_neg hcached, if_neg huncached]⟩

end Sys2Proof.Machine
end

section
/-! read32 and write32 as the address map says them (20_memory.md R45, R46, R51). -/

namespace Sys2Proof.Machine

open Sys2Proof.Safety

variable {s : State} {addr : Word} {o : Nat}

/-- read32 where the map reaches `image`. -/
theorem State.read32_of_imageOffset (h : imageOffset (addr.toNat % 2 ^ 32) = some o) :
    s.read32 addr = s.image.readWord o := by
  rw [← virtualAddress_toNat, imageOffset_eq_some_iff] at h
  obtain ⟨hwindow, rfl⟩ := h
  rcases s.read32_cases addr with ⟨-, -, hread⟩ | ⟨hout, -⟩ | ⟨hout, -⟩
  · exact hread
  all_goals exact absurd hwindow hout

/-- read32 where the map reaches `working`. -/
theorem State.read32_of_workingOffset (h : workingOffset (addr.toNat % 2 ^ 32) = some o) :
    s.read32 addr = s.working.readWord o := by
  rw [← virtualAddress_toNat] at h
  have hwindow := inWindow_eq_false_of_workingOffset h
  obtain ⟨hbounds, rfl⟩ := (workingOffset_eq_some_iff _ _).mp h
  rcases s.read32_cases addr with ⟨hin, -⟩ | ⟨-, -, hread⟩ | ⟨-, hout, -⟩
  · simp [hwindow] at hin
  · exact hread
  · simp [hbounds] at hout

/-- read32 where nothing backs the access (R45). -/
theorem State.read32_of_unbacked (himage : imageOffset (addr.toNat % 2 ^ 32) = none)
    (hworking : workingOffset (addr.toNat % 2 ^ 32) = none) : s.read32 addr = 0#32 := by
  rw [← virtualAddress_toNat, imageOffset_eq_none_iff] at himage
  rw [← virtualAddress_toNat, workingOffset_eq_none_iff] at hworking
  rcases s.read32_cases addr with ⟨hwindow, hbounds, -⟩ | ⟨-, hbounds, -⟩ | ⟨-, -, hread⟩
  · exact absurd ⟨hwindow, hbounds⟩ himage
  · simp [hworking] at hbounds
  · exact hread

/-- Settles O24: one case for each buffer the map reaches, and one for none. -/
theorem readFollowsTheAddressMap : Obligations.ReadFollowsTheAddressMap := by
  intro s addr
  unfold mapRead
  cases himage : imageOffset (addr.toNat % 2 ^ 32) with
  | some o => rw [State.read32_of_imageOffset himage, Memory.readWord_toNat]
  | none =>
    cases hworking : workingOffset (addr.toNat % 2 ^ 32) with
    | some o => rw [State.read32_of_workingOffset hworking, Memory.readWord_toNat]
    | none => rw [State.read32_of_unbacked himage hworking]; rfl

/-- What write32 stores where the map reaches `working`. -/
theorem storeWorking_of_workingOffset (m : Memory) (v : Word32)
    (h : workingOffset (addr.toNat % 2 ^ 32) = some o) : storeWorking m addr v = m.writeWord o v := by
  rw [← virtualAddress_toNat] at h
  have hwindow := inWindow_eq_false_of_workingOffset h
  obtain ⟨hbounds, rfl⟩ := (workingOffset_eq_some_iff _ _).mp h
  obtain ⟨-, -, hstore⟩ | ⟨hout, -⟩ := storeWorking_cases m addr v
  · exact hstore
  · simp [hwindow, hbounds] at hout

/-- write32 where the map reaches no offset of `working` is discarded whole (R46, R50). -/
theorem State.write32_eq_self (v : Word) (h : workingOffset (addr.toNat % 2 ^ 32) = none) :
    s.write32 addr v = s := by
  rw [← virtualAddress_toNat, workingOffset_eq_none_iff] at h
  obtain ⟨-, hbounds, -⟩ | ⟨-, hkeep⟩ := storeWorking_cases s.working addr (v.setWidth 32)
  · simp [h] at hbounds
  · rw [State.write32, hkeep]

/-- A byte of `working` after write32 is the one the map gives. -/
theorem State.readByte_write32_toNat (s : State) (addr v : Word) (o : Nat) :
    ((s.write32 addr v).working.readByte o).toNat = mapWrite s (addr.toNat % 2 ^ 32) (v.toNat % 2 ^ 32) o := by
  unfold mapWrite
  cases h : workingOffset (addr.toNat % 2 ^ 32) with
  | some p =>
    rw [State.write32_working, storeWorking_of_workingOffset _ _ h, Memory.readByte_writeWord_toNat,
      BitVec.toNat_setWidth]
  | none => rw [State.write32_eq_self v h]

/-- Settles O25: write32 is an update of `working` alone. -/
theorem writeFollowsTheAddressMap : Obligations.WriteFollowsTheAddressMap :=
  fun s addr v => ⟨State.readByte_write32_toNat s addr v, fun _ => rfl, rfl, ⟨rfl, rfl⟩,
    ⟨rfl, rfl, rfl, fun _ => rfl, rfl, rfl⟩, State.write32_eq_self v⟩

/-- A word written through one name of an offset of `working` is read through every name of it (R52, R63). -/
theorem State.read32_write32_same {addr' : Word} (v : Word) (h : workingOffset (addr.toNat % 2 ^ 32) = some o)
    (h' : workingOffset (addr'.toNat % 2 ^ 32) = some o) : (s.write32 addr v).read32 addr' = v.setWidth 32 := by
  rw [State.read32_of_workingOffset h', State.write32_working, storeWorking_of_workingOffset _ _ h,
    Memory.readWord_writeWord]

/-- A word of `working` that the word written does not overlap is read as before. -/
theorem State.read32_write32_disjoint {addr' : Word} {o' : Nat} (v : Word)
    (h : workingOffset (addr.toNat % 2 ^ 32) = some o) (h' : workingOffset (addr'.toNat % 2 ^ 32) = some o')
    (hdisjoint : o + 4 ≤ o' ∨ o' + 4 ≤ o) : (s.write32 addr v).read32 addr' = s.read32 addr' := by
  rw [State.read32_of_workingOffset h', State.read32_of_workingOffset h', State.write32_working,
    storeWorking_of_workingOffset _ _ h, Memory.readWord_writeWord_disjoint _ _ hdisjoint]

/-- Settles O26: both addresses reach `working`, at the same word or at words apart. -/
theorem storesAreReadThroughEveryAlias : Obligations.StoresAreReadThroughEveryAlias := by
  intro s addr addr' v o o' h h'
  refine ⟨?_, State.read32_write32_disjoint v h h'⟩
  rintro rfl
  rw [State.read32_write32_same v h h', BitVec.toNat_setWidth]

/-- Settles O27: the map reaches no buffer there. -/
theorem kernelSegmentsDoNotReachTheImage : Obligations.KernelSegmentsDoNotReachTheImage := by
  intro s addr v h
  obtain ⟨himage, hworking⟩ := offsets_eq_none_of_kernel_window h
  exact ⟨State.read32_of_unbacked himage hworking, State.write32_eq_self v hworking⟩

end Sys2Proof.Machine
end

section
/-! Fetches: of a word just stored, and from where nothing backs `pc` (20_memory.md R53, R66). -/

namespace Sys2Proof.Machine

open Sys2Proof.Safety

variable {c : Config} {s u : State}

/-- The step of a decoded instruction commits what its execute phase answers (R80). -/
theorem stepWith_of_exec {i : Instr} (hreset : s.wasReset = true) (hi : decode c s.fetch = i)
    (hexec : exec i s = .next u) : stepWith c s = .next u.commit :=
  (stepWith_next_iff c s u.commit).mpr ⟨hreset, u, by rw [hi, hexec], rfl⟩

/-- The displacement is the spec's `sext_64` of the immediate (R71). -/
theorem simm_toNat (imm : BitVec 16) : (simm imm).toNat = sext64 imm.toNat := by
  simp only [simm, BitVec.toNat_signExtend, BitVec.msb_eq_decide, BitVec.toNat_setWidth, sext64, decide_eq_true_eq]
  split_ifs <;> omega

/-- The address of a load or a store is the spec's (R106 to R108). -/
theorem State.effectiveAddress_toNat (s : State) (rs : RegIx) (imm : BitVec 16) :
    (s.effectiveAddress rs imm).toNat = addressOf s rs imm := by
  rw [State.effectiveAddress, BitVec.toNat_add, simm_toNat, addressOf]

/-- The end of a step makes `nextPc` the address fetched from, and keeps both buffers. -/
theorem State.fetch_commit (s : State) : s.commit.fetch = s.read32 s.nextPc := rfl

/-- Settles O17: the next fetch reads the offset stored to, through any name of it. -/
theorem storeIsSeenByTheNextFetch : Obligations.StoreIsSeenByTheNextFetch := by
  intro c s rt rs imm o hreset hsw hstore hfetch
  refine ⟨_, stepWith_of_exec hreset hsw rfl, ?_⟩
  rw [← State.effectiveAddress_toNat] at hstore
  rw [State.fetch_commit, State.write32_nextPc, State.read32_write32_same _ hstore hfetch, BitVec.toNat_setWidth]

/-- The zero word is the no-op SLL r0, r0, 0 (R79). -/
theorem decode_zero (c : Config) : decode c 0#32 = .sll 0#5 0#5 0#5 := rfl

/-- The no-op's execute phase changes nothing: its register write is discarded (R86). -/
theorem exec_sll_zero (s : State) : exec (.sll 0#5 0#5 0#5) s = .next s :=
  congrArg Host.Outcome.next (State.writeReg_zero s _)

/-- Settles O18: the word fetched is 0, and the step only commits. -/
theorem unbackedFetchRunsTheNoOp : Obligations.UnbackedFetchRunsTheNoOp := by
  intro c s hreset himage hworking
  have hnop : decode c s.fetch = .sll 0#5 0#5 0#5 := by
    rw [State.fetch, State.read32_of_unbacked himage hworking, decode_zero]
  have hother (r : RegIx) (hr : r ≠ 0#5) : s.commit.readReg r = s.readReg r := by
    rw [State.readReg_commit, if_neg hr]
  exact ⟨hnop, s.commit, stepWith_of_exec hreset hnop (exec_sll_zero s), rfl, rfl, rfl, State.readReg_commit s 0#5,
    hother, ⟨rfl, rfl⟩, rfl, rfl, rfl, rfl⟩

end Sys2Proof.Machine
end

section
/-! The normalised bytes of an image (20_memory.md R56 to R58). -/

namespace Sys2Proof.Machine

open Sys2Proof.Safety

/-- Behind a whole group the mirrored index is that of the rest, one group on. -/
theorem mirroredIndex_add_four (n o : Nat) : mirroredIndex (n + 4) (o + 4) = mirroredIndex n o + 4 := by
  unfold mirroredIndex
  split_ifs <;> omega

/-- In a first whole group the index is mirrored (R57). -/
theorem mirroredIndex_of_lt_four {n o : Nat} (hn : 4 ≤ n) (ho : o < 4) : mirroredIndex n o = 3 - o := by
  unfold mirroredIndex
  split_ifs <;> omega

/-- Where there is no whole group the index stays. -/
theorem mirroredIndex_of_short {n : Nat} (hn : n < 4) (o : Nat) : mirroredIndex n o = o :=
  if_neg (by omega)

/-- Reversing the groups puts each byte at its mirrored index. -/
theorem reverseGroups_getElem? : ∀ (bs : List Byte) (o : Nat),
    (reverseGroups bs)[o]? = bs[mirroredIndex bs.length o]?
  | b0 :: b1 :: b2 :: b3 :: rest, 0 | b0 :: b1 :: b2 :: b3 :: rest, 1
  | b0 :: b1 :: b2 :: b3 :: rest, 2 | b0 :: b1 :: b2 :: b3 :: rest, 3 => by
    rw [mirroredIndex_of_lt_four (by simp) (by decide)]; rfl
  | b0 :: b1 :: b2 :: b3 :: rest, o + 4 => by
    change (reverseGroups rest)[o]? = (b0 :: b1 :: b2 :: b3 :: rest)[mirroredIndex (rest.length + 4) (o + 4)]?
    rw [mirroredIndex_add_four]
    exact reverseGroups_getElem? rest o
  | [], o | [_], o | [_, _], o | [_, _, _], o => by
    rw [mirroredIndex_of_short (by simp)]; rfl

/-- Reversing the groups twice gives the bytes back. -/
theorem reverseGroups_reverseGroups : ∀ bs : List Byte, reverseGroups (reverseGroups bs) = bs
  | _ :: _ :: _ :: _ :: rest => by simp [reverseGroups, reverseGroups_reverseGroups rest]
  | [] | [_] | [_, _] | [_, _, _] => rfl

/-- Bytes that stand mirrored in their groups are the groups reversed. -/
theorem eq_reverseGroups_of_mirrored {big little : List Byte} (hlen : little.length = big.length)
    (h : ∀ o, o < big.length → little[o]? = big[mirroredIndex big.length o]?) : little = reverseGroups big := by
  refine List.ext_getElem? fun o => ?_
  by_cases ho : o < big.length
  · rw [h o ho, reverseGroups_getElem?]
  · rw [List.getElem?_eq_none (by omega), List.getElem?_eq_none (by rw [reverseGroups_length]; omega)]

/-- Settles O31: the byte-swapped form is the groups reversed. -/
theorem normaliseVerbatimOrSwapped : Obligations.NormaliseVerbatimOrSwapped :=
  fun raw => ⟨rfl, reverseGroups_length raw, fun o _ => reverseGroups_getElem? raw o⟩

/-- A little-endian word as a number (R58). -/
theorem littleEndianWord_toNat (b0 b1 b2 b3 : Byte) : (littleEndianWord b0 b1 b2 b3).toNat =
    b0.toNat + b1.toNat * 2 ^ 8 + b2.toNat * 2 ^ 16 + b3.toNat * 2 ^ 24 := by
  simp only [littleEndianWord, toNat_append_eq]
  omega

/-- The big-endian bytes of a little-endian word are its group reversed. -/
theorem wordBytes_littleEndianWord (b0 b1 b2 b3 : Byte) :
    wordBytes (littleEndianWord b0 b1 b2 b3) = [b3, b2, b1, b0] := by
  simp only [wordBytes, List.cons.injEq, and_true, ← BitVec.toNat_inj, extractLsb'_toNat_eq, littleEndianWord_toNat]
  omega

/-- Re-emitting the groups as words is reversing them (R58). -/
theorem reemitLittleEndian_eq_reverseGroups : ∀ bs : List Byte, reemitLittleEndian bs = reverseGroups bs
  | b0 :: b1 :: b2 :: b3 :: rest => by
    rw [reemitLittleEndian, wordBytes_littleEndianWord, reemitLittleEndian_eq_reverseGroups rest]; rfl
  | [] | [_] | [_, _] | [_, _, _] => rfl

/-- Settles O32: the two normalised forms are the same function of the bytes. -/
theorem littleEndianIsTheSamePermutation : Obligations.LittleEndianIsTheSamePermutation :=
  ⟨reemitLittleEndian_eq_reverseGroups, littleEndianWord_toNat⟩

end Sys2Proof.Machine
end

section
/-! What `loadImage` answers and leaves (20_memory.md R55, R59 to R62, 70_reset_and_hazards.md R136). -/

namespace Sys2Proof.Machine

open Sys2Proof.Safety

variable {raw : List Byte} {b : Byte} {order : ByteOrder}

/-- A byte that is none of the three magics names no order. -/
theorem magicOrder_eq_none (h80 : b ≠ 0x80#8) (h37 : b ≠ 0x37#8) (h40 : b ≠ 0x40#8) : magicOrder b = none := by
  rw [magicOrder, if_neg h80, if_neg h37, if_neg h40]

/-- The checks that need a first byte are reached from four bytes on. -/
theorem exists_cons_of_four_le (h : 4 ≤ raw.length) : ∃ b b1 b2 b3 rest, raw = b :: b1 :: b2 :: b3 :: rest := by
  match raw, h with
  | b :: b1 :: b2 :: b3 :: rest, _ => exact ⟨b, b1, b2, b3, rest, rfl⟩

/-- The first check (R55). -/
theorem State.loadImage_tooShort (s : State) (h : raw.length < 4) : s.loadImage raw = (.err .tooShort, s) := by
  match raw, h with
  | [], _ | [_], _ | [_, _], _ | [_, _, _], _ => rfl

/-- The second check, before the size is looked at (R55, D15). -/
theorem State.loadImage_badMagic (s : State) (h : 4 ≤ raw.length) (hb : raw[0]? = some b)
    (hmagic : magicOrder b = none) : s.loadImage raw = (.err .badMagic, s) := by
  obtain ⟨b', b1, b2, b3, rest, rfl⟩ := exists_cons_of_four_le h
  cases hb
  simp [State.loadImage, hmagic]

/-- The third check (R55). -/
theorem State.loadImage_tooLarge (s : State) (h : 4 ≤ raw.length) (hb : raw[0]? = some b)
    (hmagic : magicOrder b = some order) (hsize : imageSize < raw.length) :
    s.loadImage raw = (.err .tooLarge, s) := by
  obtain ⟨b', b1, b2, b3, rest, rfl⟩ := exists_cons_of_four_le h
  cases hb
  rw [State.loadImage, hmagic]
  exact if_pos hsize

/-- A load that passes the three checks (R56 to R59). -/
theorem State.loadImage_ok (s : State) (h : 4 ≤ raw.length) (hb : raw[0]? = some b)
    (hmagic : magicOrder b = some order) (hsize : raw.length ≤ imageSize) :
    s.loadImage raw = (.ok raw.length,
      { s with image := s.image.writeBytes 0 (normalise order raw), imageByteOrder := order }) := by
  obtain ⟨b', b1, b2, b3, rest, rfl⟩ := exists_cons_of_four_le h
  cases hb
  rw [State.loadImage, hmagic]
  exact if_neg (Nat.not_lt.mpr hsize)

/-- Settles O29: each failing check has its own lemma, and the first byte decides the second. -/
theorem loadImageRejectsInOrder : Obligations.LoadImageRejectsInOrder := by
  intro s raw
  refine ⟨s.loadImage_tooShort, fun hlen h80 h37 h40 => ?_, fun hlen hmagic hsize => ?_⟩
  all_goals obtain ⟨b, hb⟩ : ∃ b, raw[0]? = some b := ⟨raw[0], List.getElem?_eq_getElem (by omega)⟩
  · rw [hb, ne_eq, Option.some.injEq] at h80 h37 h40
    exact s.loadImage_badMagic hlen hb (magicOrder_eq_none h80 h37 h40)
  · obtain h | h | h := hmagic
    all_goals exact s.loadImage_tooLarge hlen h rfl hsize

/-- Settles O30: the bytes written are as many as the bytes loaded, from offset 0 on. -/
theorem loadImageCopiesTheNormalisedBytes : Obligations.LoadImageCopiesTheNormalisedBytes := by
  intro s raw order hlen hsize hmagic
  obtain ⟨b, hb, horder⟩ : ∃ b, raw[0]? = some b ∧ magicOrder b = some order := by
    obtain ⟨h, rfl⟩ | ⟨h, rfl⟩ | ⟨h, rfl⟩ := hmagic
    all_goals exact ⟨_, h, rfl⟩
  refine ⟨_, s.loadImage_ok hlen hb horder hsize, fun o => ?_, rfl, rfl, rfl, rfl, rfl, rfl, rfl, rfl, rfl, rfl⟩
  simp [Memory.readByte_writeBytes, normalise_length]

/-- Settles O33: the little input is the big one with its groups reversed, and reversing them again gives the bytes
the big one is loaded as. -/
theorem imageFormatsRoundTrip : Obligations.ImageFormatsRoundTrip := by
  intro s big little hlen hsize _ hb0 hb3 hlittle hmirror
  have hl0 : little[0]? = some 0x40#8 := by
    rw [hmirror 0 (by omega), mirroredIndex_of_lt_four hlen (by omega), hb3]
  have hnormalised : normalise .littleEndian little = normalise .nativeBig big := by
    rw [eq_reverseGroups_of_mirrored hlittle hmirror]
    exact (reemitLittleEndian_eq_reverseGroups _).trans (reverseGroups_reverseGroups big)
  rw [s.loadImage_ok hlen hb0 rfl hsize, s.loadImage_ok (by omega) hl0 rfl (by omega), hnormalised, hlittle]
  exact ⟨rfl, rfl, rfl⟩

/-- The bytes alone decide whether a load fails, and how. -/
theorem State.loadImage_cases_of_raw (raw : List Byte) :
    (∃ e, ∀ s : State, s.loadImage raw = (.err e, s)) ∨
      ∃ order, ∀ s : State, s.loadImage raw = (.ok raw.length,
        { s with image := s.image.writeBytes 0 (normalise order raw), imageByteOrder := order }) := by
  by_cases hlen : raw.length < 4
  · exact .inl ⟨_, fun s => s.loadImage_tooShort hlen⟩
  · have hfour : 4 ≤ raw.length := by omega
    have hb : raw[0]? = some raw[0] := List.getElem?_eq_getElem (by omega)
    cases hmagic : magicOrder raw[0] with
    | none => exact .inl ⟨_, fun s => s.loadImage_badMagic hfour hb hmagic⟩
    | some order =>
      by_cases hsize : imageSize < raw.length
      · exact .inl ⟨_, fun s => s.loadImage_tooLarge hfour hb hmagic hsize⟩
      · exact .inr ⟨order, fun s => s.loadImage_ok hfour hb hmagic (by omega)⟩

/-- Settles O35: the two write different fields, and the load's answer does not depend on the state. -/
theorem resetAndLoadCommute : Obligations.ResetAndLoadCommute := by
  intro c s raw
  obtain ⟨e, h⟩ | ⟨order, h⟩ := State.loadImage_cases_of_raw raw
  all_goals rw [h, h]; exact ⟨rfl, rfl⟩

end Sys2Proof.Machine
end

section
/-! The fields of a word put together again, whole and under a mask (30_encoding.md R69, R70, R75). -/

namespace Sys2Proof

open Sys2Proof.Machine

variable {w m p : Word32} {op funct : BitVec 6} {rs rt rd sa mrs mrt mrd msa : BitVec 5}
  {imm mimm : BitVec 16}

/-- The fields of the I format are the whole word. -/
theorem encodeI_fields (w : Word32) : encodeI (opField w) (rsField w) (rtField w) (immField w) = w := by
  apply BitVec.eq_of_toNat_eq
  simp only [encodeI, opField, rsField, rtField, immField, extractLsb'_toNat_eq, toNat_append_eq]
  omega

/-- The fields of the J format are the whole word. -/
theorem encodeJ_fields (w : Word32) : encodeJ (opField w) (targetField w) = w := by
  apply BitVec.eq_of_toNat_eq
  simp only [encodeJ, opField, targetField, extractLsb'_toNat_eq, toNat_append_eq]
  omega

/-- The fields of the R format are the whole word, if its opcode is 0. -/
theorem encodeR_fields (h : opField w = 0#6) :
    encodeR (rsField w) (rtField w) (rdField w) (saField w) (functField w) = w := by
  rw [encodeR, ← h]
  apply BitVec.eq_of_toNat_eq
  simp only [opField, rsField, rtField, rdField, saField, functField, extractLsb'_toNat_eq, toNat_append_eq]
  omega

/-- An I-format word is masked field by field. -/
theorem encodeI_and (mop : BitVec 6) : encodeI op rs rt imm &&& encodeI mop mrs mrt mimm =
    encodeI (op &&& mop) (rs &&& mrs) (rt &&& mrt) (imm &&& mimm) :=
  BitVec.and_append.trans (by simp only [BitVec.and_append, encodeI])

/-- An R-format word is masked field by field, by a mask of every field. -/
theorem encodeR_and (mop mfunct : BitVec 6) :
    encodeR rs rt rd sa funct &&& (mop ++ mrs ++ mrt ++ mrd ++ msa ++ mfunct) =
      encodeR (rs &&& mrs) (rt &&& mrt) (rd &&& mrd) (sa &&& msa) (funct &&& mfunct) :=
  BitVec.and_append.trans (by simp only [BitVec.and_append, BitVec.zero_and, encodeR])

/-- An I-format encoding of a word's fields, each operand masked, is the word masked there. -/
theorem encodeI_eq_and (hop : opField w = op) (hrs : rsField w &&& mrs = rs) (hrt : rtField w &&& mrt = rt)
    (himm : immField w &&& mimm = imm) : encodeI op rs rt imm = w &&& encodeI (BitVec.allOnes 6) mrs mrt mimm := by
  conv_rhs => rw [← encodeI_fields w, encodeI_and, hop, hrs, hrt, himm, BitVec.and_allOnes]

/-- An R-format encoding of a word's fields, each operand masked, is the word masked there. -/
theorem encodeR_eq_and (hop : opField w = 0#6) (hfunct : functField w = funct) (hrs : rsField w &&& mrs = rs)
    (hrt : rtField w &&& mrt = rt) (hrd : rdField w &&& mrd = rd) (hsa : saField w &&& msa = sa) :
    encodeR rs rt rd sa funct = w &&& (BitVec.allOnes 6 ++ mrs ++ mrt ++ mrd ++ msa ++ BitVec.allOnes 6) := by
  conv_rhs => rw [← encodeR_fields hop, encodeR_and, hfunct, hrs, hrt, hrd, hsa, BitVec.and_allOnes]

/-- A mask that keeps the op field keeps it. -/
theorem opField_eq_of_and_eq (hm : opField m = BitVec.allOnes 6) (h : w &&& m = p) : opField w = opField p := by
  rw [← h, opField, opField, BitVec.extractLsb'_and, ← opField, ← opField, hm, BitVec.and_allOnes]

/-- A mask that keeps the funct field keeps it. -/
theorem functField_eq_of_and_eq (hm : functField m = BitVec.allOnes 6) (h : w &&& m = p) :
    functField w = functField p := by
  rw [← h, functField, functField, BitVec.extractLsb'_and, ← functField, ← functField, hm, BitVec.and_allOnes]

end Sys2Proof
end

section
/-! What the decoder can answer, against the lists of R73 and R74, and the round trips with the encoder. -/

namespace Sys2Proof

open Sys2Proof.Laws.Recognised Sys2Proof.Safety

variable {c : Config} {w : Word32}

/-- The lists of R73 and R74, read through the fields of R69. -/
theorem recognisedWord_eq (c : Config) (w : Word32) : recognisedWord c w =
    if opField w = 0#6 then recognisedFuncts.contains (functField w) || (c.decodeFunct19 && functField w == 0x19#6)
    else recognisedOps.contains (opField w) := rfl

/-- The two things the decoder can answer: a well-formed instruction of a named row, or the fallback row (R76). -/
def DecodesAs (c : Config) (w : Word32) (i : Instr) : Prop :=
  (recognisedWord c w = true ∧ i.wellFormed c = true ∧ i.mnemonic ≠ "UNRECOGNISED") ∨
    (recognisedWord c w = false ∧ i = .unrecognised w)

/-- The function map answers a named row for the listed codes alone. -/
theorem decodeSpecial_decodesAs (c : Config) (h : opField w = 0#6) : DecodesAs c w (decodeSpecial c w) := by
  fun_cases decodeSpecial c w
  -- funct 0x19 under the two settings of DECODE_FUNCT19, then the codes R74 does not list
  case case7 hf h19 => exact .inl ⟨recognised_of_funct h hf (by rw [h19]; rfl), h19, by simp [Instr.mnemonic]⟩
  case case8 hf h19 =>
    refine .inr ⟨?_, rfl⟩
    rw [recognisedWord_eq, if_pos h, hf, Bool.eq_false_of_not_eq_true h19]
    rfl
  case case15 => exact .inr ⟨by simp_all [recognisedWord_eq, recognisedFuncts], rfl⟩
  all_goals exact .inl ⟨recognised_of_funct h ‹_› (listed_funct rfl), rfl, by simp [Instr.mnemonic]⟩

/-- The decoder answers a named row for the listed opcodes and function codes alone. -/
theorem decode_decodesAs (c : Config) (w : Word32) : DecodesAs c w (decode c w) := by
  fun_cases decode c w
  case case1 h => exact decodeSpecial_decodesAs c h
  case case13 => exact .inr ⟨by simp_all [recognisedWord_eq, recognisedOps], rfl⟩
  all_goals exact .inl ⟨recognised_of_op ‹_› (by decide) rfl, rfl, by simp [Instr.mnemonic]⟩

/-- A word no list holds decodes to the fallback row. -/
theorem decode_eq_unrecognised (h : recognisedWord c w = false) : decode c w = .unrecognised w := by
  obtain ⟨hrec, -⟩ | ⟨-, hi⟩ := decode_decodesAs c w
  · exact absurd hrec (by simp [h])
  · exact hi

/-- The fallback row holds exactly the words no list holds (R76). -/
theorem decode_mnemonic_eq_unrecognised_iff (c : Config) (w : Word32) :
    (decode c w).mnemonic = "UNRECOGNISED" ↔ recognisedWord c w = false := by
  refine ⟨fun h => ?_, fun h => by rw [decode_eq_unrecognised h]; rfl⟩
  obtain ⟨-, -, hne⟩ | ⟨hrec, -⟩ := decode_decodesAs c w
  · exact absurd h hne
  · exact hrec

/-- Settles O52: a named row's instruction is well formed, and the fallback row holds only words of no list. -/
theorem everyWordDecodesWellFormed : Obligations.EveryWordDecodesWellFormed := by
  intro c w
  obtain ⟨-, hwf, -⟩ | ⟨hrec, hi⟩ := decode_decodesAs c w
  · exact hwf
  · rw [hi, Instr.wellFormed, hrec, Bool.not_false]

/-- Settles O51, constructor by constructor: the op field, and funct under op 0, select the arm of the decoder, and
the fields of the encoded word are the operands. -/
theorem decodeOfEncodeIsTheInstruction : Obligations.DecodeOfEncodeIsTheInstruction := by
  intro c i hwf
  cases i with
  | j | jal => simp only [encode, decode, opField_encodeJ, targetField_encodeJ]
  | beq | bne | addi | addiu | andi | ori | lui | lw | sw =>
    simp only [encode, decode, opField_encodeI, rsField_encodeI, rtField_encodeI, immField_encodeI]
  | sll | srl | jr | jalr | mflo | multu | add | addu | sub | subu | and | or =>
    simp only [encode, decode, decodeSpecial, opField_encodeR, rsField_encodeR, rtField_encodeR, rdField_encodeR,
      saField_encodeR, functField_encodeR]
  | multu19 rs rt =>
    have h19 : c.decodeFunct19 = true := hwf
    simp only [encode, decode, decodeSpecial, opField_encodeR, functField_encodeR, rsField_encodeR, rtField_encodeR,
      h19, if_true]
  | unrecognised w => exact decode_eq_unrecognised ((Bool.not_eq_true' _).mp hwf)

/-- Re-encoding a word of the function map keeps the fields its row uses (R75). -/
theorem encode_decodeSpecial (c : Config) (h : opField w = 0#6) :
    encode (decodeSpecial c w) = w &&& usedBits (decodeSpecial c w) := by
  fun_cases decodeSpecial c w
  case case1 hf | case2 hf => -- SLL and SRL ignore rs
    exact encodeR_eq_and h hf BitVec.and_zero BitVec.and_allOnes BitVec.and_allOnes BitVec.and_allOnes
  case case3 hf => -- JR uses rs alone
    exact encodeR_eq_and h hf BitVec.and_allOnes BitVec.and_zero BitVec.and_zero BitVec.and_zero
  case case4 hf => -- JALR uses rs and rd
    exact encodeR_eq_and h hf BitVec.and_allOnes BitVec.and_zero BitVec.and_allOnes BitVec.and_zero
  case case5 hf => -- MFLO uses rd alone
    exact encodeR_eq_and h hf BitVec.and_zero BitVec.and_zero BitVec.and_allOnes BitVec.and_zero
  case case6 hf | case7 hf _ => -- both encodings of MULTU use rs and rt
    exact encodeR_eq_and h hf BitVec.and_allOnes BitVec.and_allOnes BitVec.and_zero BitVec.and_zero
  case case8 | case15 => exact BitVec.and_allOnes.symm -- the fallback row keeps the word
  all_goals -- the register ALU ignores sa
    exact encodeR_eq_and h ‹_› BitVec.and_allOnes BitVec.and_allOnes BitVec.and_allOnes BitVec.and_zero

/-- Re-encoding a decoded word keeps the fields its row uses (R75). -/
theorem encode_decode (c : Config) (w : Word32) : encode (decode c w) = w &&& usedBits (decode c w) := by
  fun_cases decode c w
  case case1 h => exact encode_decodeSpecial c h
  case case2 h | case3 h => -- J and JAL use every bit
    exact (congrArg (encodeJ · (targetField w)) h.symm).trans ((encodeJ_fields w).trans BitVec.and_allOnes.symm)
  case case10 h => -- LUI ignores rs
    exact encodeI_eq_and h BitVec.and_zero BitVec.and_allOnes BitVec.and_allOnes
  case case13 => exact BitVec.and_allOnes.symm -- the fallback row keeps the word
  all_goals exact encodeI_eq_and ‹_› BitVec.and_allOnes BitVec.and_allOnes BitVec.and_allOnes

/-- Settles O53: the masked word is the encoding of a well-formed instruction, so it decodes to that instruction. -/
theorem encodeOfDecodeKeepsTheUsedBits : Obligations.EncodeOfDecodeKeepsTheUsedBits := by
  refine fun c w => ⟨encode_decode c w, ?_⟩
  rw [← encode_decode]
  exact decodeOfEncodeIsTheInstruction c _ (everyWordDecodesWellFormed c w)

end Sys2Proof
end

section
/-! What selects the row: the op field, and the funct field under opcode 0 (30_encoding.md R72 to R76). -/

namespace Sys2Proof

open Sys2Proof.Safety

variable {c : Config} {w w' : Word32}

/-- The funct field alone selects the row of the function map. -/
theorem decodeSpecial_mnemonic_congr (h : functField w = functField w') :
    (decodeSpecial c w).mnemonic = (decodeSpecial c w').mnemonic := by
  unfold decodeSpecial
  rw [← h]
  split
  case h_7 => split <;> rfl
  all_goals rfl

/-- The op field, and the funct field under opcode 0, select the row (R72). -/
theorem decode_mnemonic_congr (hop : opField w = opField w')
    (hfunct : opField w = 0#6 → functField w = functField w') :
    (decode c w).mnemonic = (decode c w').mnemonic := by
  unfold decode
  rw [← hop]
  split
  case h_1 h => exact decodeSpecial_mnemonic_congr (hfunct h)
  all_goals rfl

/-- The op field is bits 31:26 (R69). -/
theorem opField_toNat (w : Word32) : (opField w).toNat = bits w.toNat 31 26 := extractLsb'_toNat_eq w 26 6

/-- The funct field is bits 5:0 (R69). -/
theorem functField_toNat (w : Word32) : (functField w).toNat = bits w.toNat 5 0 := extractLsb'_toNat_eq w 0 6

/-- Settles O55: the bit ranges are the op and the funct field. -/
theorem onlyOpAndFunctSelect : Obligations.OnlyOpAndFunctSelect := by
  intro c w w' hop hfunct
  simp only [← opField_toNat, ← functField_toNat, BitVec.toNat_inj] at hop hfunct
  exact decode_mnemonic_congr hop fun h => hfunct (congrArg BitVec.toNat h)

/-- DECODE_FUNCT19 only adds a row to the table. -/
theorem opcodeRows_subset_chosen (c : Config) : opcodeRows c ⊆ opcodeRows Config.chosen := by
  unfold opcodeRows
  split
  · exact List.Subset.refl _
  · rw [List.append_nil]
    exact List.subset_append_left ..

/-- Every row's mask keeps the op field, and the funct field too where the row's opcode is 0. -/
theorem opcodeRows_mask_fields {row : OpcodeRow} (hrow : row ∈ opcodeRows c) :
    opField row.mask = BitVec.allOnes 6 ∧
      (opField row.pattern = 0#6 → functField row.mask = BitVec.allOnes 6) := by
  have h : ∀ row ∈ opcodeRows Config.chosen, opField row.mask = BitVec.allOnes 6 ∧
    (opField row.pattern = 0#6 → functField row.mask = BitVec.allOnes 6) := by decide
  exact h row (opcodeRows_subset_chosen c hrow)

/-- Every row's pattern decodes to the row. -/
theorem opcodeRows_mnemonic_of_pattern {row : OpcodeRow} (hrow : row ∈ opcodeRows c) :
    (decode c row.pattern).mnemonic = row.mnemonic := by
  have h : (opcodeRows c).map (fun row => (decode c row.pattern).mnemonic) = (opcodeRows c).map (·.mnemonic) := by
    obtain ⟨_, _, funct19, _, _⟩ := c
    cases funct19
    all_goals rfl
  exact List.map_inj_left.mp h row hrow

/-- An opcode R73 lists has its row, which tests the op field alone. -/
theorem exists_primaryRow {op : BitVec 6} (h : op ∈ recognisedOps) :
    ∃ row ∈ opcodeRowsPrimary, row.mask = 0xFC000000#32 ∧ row.pattern = encodeI op 0 0 0 := by
  revert op
  decide

/-- A function code R74 lists has its row, which tests the op and the funct field alone. -/
theorem exists_specialRow {funct : BitVec 6} (h : funct ∈ recognisedFuncts) :
    ∃ row ∈ opcodeRowsSpecial, row.mask = 0xFC00003F#32 ∧ row.pattern = encodeR 0 0 0 0 funct := by
  revert funct
  decide

/-- A word the lists of R73 and R74 hold belongs to a row of the table. -/
theorem exists_opcodeRow_of_recognised (h : recognisedWord c w = true) :
    ∃ row ∈ opcodeRows c, w &&& row.mask = row.pattern := by
  rw [recognisedWord_eq] at h
  split at h
  · next hop =>
    have hand : w &&& 0xFC00003F#32 = encodeR 0 0 0 0 (functField w) :=
      (encodeR_eq_and hop rfl BitVec.and_zero BitVec.and_zero BitVec.and_zero BitVec.and_zero).symm
    obtain hf | hf := Bool.or_eq_true_iff.mp h
    · obtain ⟨row, hrow, hm, hp⟩ := exists_specialRow (List.contains_iff_mem.mp hf)
      exact ⟨row, by simp [opcodeRows, hrow], by rw [hm, hp, hand]⟩
    · obtain ⟨h19, hf⟩ := Bool.and_eq_true_iff.mp hf
      rw [eq_of_beq hf] at hand
      exact ⟨⟨"MULTU_19", _, _⟩, by simp [opcodeRows, h19], hand⟩
  · obtain ⟨row, hrow, hm, hp⟩ := exists_primaryRow (List.contains_iff_mem.mp h)
    refine ⟨row, by simp [opcodeRows, hrow], ?_⟩
    rw [hm, hp]
    exact (encodeI_eq_and rfl BitVec.and_zero BitVec.and_zero BitVec.and_zero).symm

/-- Settles O54: a row's mask keeps what selects the mnemonic, so the word decodes as the row's pattern does. -/
theorem opcodeTableSelectsTheMnemonic : Obligations.OpcodeTableSelectsTheMnemonic := by
  intro c w
  refine ⟨fun row hrow h => ?_, fun h => decode_eq_unrecognised ?_⟩
  · obtain ⟨hop, hfunct⟩ := opcodeRows_mask_fields hrow
    rw [← opcodeRows_mnemonic_of_pattern hrow]
    have hw := opField_eq_of_and_eq hop h
    exact decode_mnemonic_congr hw fun h0 => functField_eq_of_and_eq (hfunct (hw ▸ h0)) h
  · refine Bool.eq_false_of_not_eq_true fun hrec => ?_
    obtain ⟨row, hrow, hw⟩ := exists_opcodeRow_of_recognised hrec
    exact h row hrow hw

/-- Settles O56: the unrecognised words are those of no list, and the lists are finite. -/
theorem unrecognisedCodeCounts : Obligations.UnrecognisedCodeCounts := by
  intro c
  simp only [decode_mnemonic_eq_unrecognised_iff, recognisedWord_eq]
  cases c.decodeFunct19
  all_goals decide

/-- Settles O57: each word is the encoding of its instruction. -/
theorem exampleWordsDecode : Obligations.ExampleWordsDecode :=
  have h := decodeOfEncodeIsTheInstruction Config.chosen
  ⟨h (.addi 1#5 0#5 100#16) rfl, h (.ori 2#5 0#5 0xFF00#16) rfl, h (.add 3#5 1#5 2#5) rfl, h (.sub 4#5 2#5 1#5) rfl,
    h (.multu 1#5 2#5) rfl, h (.mflo 3#5) rfl⟩

end Sys2Proof
end

section
/-! The step around the execute phase: it completes, re-pins r0, advances and counts (40_step.md R80 to R90). -/

namespace Sys2Proof.Machine

open Sys2Proof.Safety

variable {s t : State}

/-- The re-pin at the end of a step reaches no register but r0 (R87). -/
theorem State.readReg_commit_of_ne (s : State) {r : RegIx} (hr : r ≠ 0#5) : s.commit.readReg r = s.readReg r := by
  rw [State.readReg_commit, if_neg hr]

/-- No execute phase changes the model's own flag. -/
theorem exec_wasReset {i : Instr} (h : exec i s = .next t) : t.wasReset = s.wasReset := by
  obtain ⟨u, hu, -, -, -, -, -, hkeep⟩ := exec_next i s
  cases h.symm.trans hu
  exact hkeep

/-- Settles O1: the step is the commit of what `exec` answers. -/
theorem stepRunsTheDecodedInstruction : Obligations.StepRunsTheDecodedInstruction := by
  intro s t i hreset hi hexec
  have hflag : t.commit.wasReset = true := (exec_wasReset hexec).trans hreset
  exact ⟨t.commit, stepWith_of_exec hreset hi hexec, State.readReg_commit t 0#5, fun _ => State.readReg_commit_of_ne t,
    rfl, rfl, rfl, rfl, rfl, rfl, rfl, rfl, rfl, hflag⟩

/-- Settles O2: every execute phase answers a next state, and keeps the flag. -/
theorem stepAlwaysCompletes : Obligations.StepAlwaysCompletes := by
  intro c s hreset
  obtain ⟨u, hu, -⟩ := exec_next (decode c s.fetch) s
  exact ⟨u.commit, stepWith_of_exec hreset rfl hu, (exec_wasReset hu).trans hreset⟩

/-- Settles O5: the step ends in a commit, which re-pins, and counts 1. -/
theorem everyStepRepinsAndCounts : Obligations.EveryStepRepinsAndCounts := by
  intro c s t h
  obtain ⟨hcycles, -⟩ := stepWith_cycles_image h
  obtain ⟨-, u, -, rfl⟩ := (stepWith_next_iff c s t).mp h
  exact ⟨State.readReg_commit u 0#5, hcycles⟩

/-- Settles O16: a store and a product leave `nextPc` alone, and so does the third effect where it is no transfer's. -/
theorem onlyControlTransfersRedirect : Obligations.OnlyControlTransfersRedirect := by
  intro c s t h hnot
  obtain ⟨rd, v, n, hn, rfl⟩ | ⟨rt, imm, rs, -, rfl⟩ | ⟨rs, rt, -, rfl⟩ := stepWith_cases h
  · exact hn hnot
  · rfl
  · rfl

/-- Settles O49: the step is the commit of the state as it was. -/
theorem unrecognisedWordsAreNoOps : Obligations.UnrecognisedWordsAreNoOps :=
  fun _ _ s => ⟨rfl, fun hreset hi => ⟨s.commit, stepWith_of_exec hreset hi rfl, rfl, rfl, rfl,
    State.readReg_commit s 0#5, fun _ => State.readReg_commit_of_ne s, ⟨rfl, rfl⟩, rfl, rfl, rfl, rfl⟩⟩

end Sys2Proof.Machine
end

section
/-! A jump in the program (40_step.md R91, 42_control.md R99). -/

namespace Sys2Proof.Machine

open Sys2Proof.Safety

/-- Bits 31:28 of a word, in place (R99). -/
theorem toNat_and_segment (v : Word) : (v &&& 0xF0000000#64).toNat = bits v.toNat 31 28 * 2 ^ 28 := by
  have hmask : (0xF0000000#64).toNat = (2 ^ 4 - 1) * 2 ^ 28 := rfl
  rw [BitVec.toNat_and, hmask, bits]
  apply Nat.eq_of_testBit_eq
  intro k
  simp only [Nat.testBit_and, Nat.testBit_mul_two_pow, Nat.testBit_two_pow_sub_one, Nat.testBit_mod_two_pow,
    Nat.testBit_div_two_pow]
  by_cases hk : 28 ≤ k
  · simp [hk, Nat.sub_add_cancel, Bool.and_comm]
  · simp [hk]

/-- The jump target is the spec's `{pc[31:28], target, 00}` (R71, R99). -/
theorem State.jumpTarget_toNat (s : State) (target : BitVec 26) :
    (s.jumpTarget target).toNat = jumpTargetOf s target := by
  have htarget : (target.setWidth 64 <<< 2).toNat = target.toNat * 4 := by
    rw [BitVec.toNat_shiftLeft, BitVec.toNat_setWidth, Nat.shiftLeft_eq]
    omega
  rw [State.jumpTarget, BitVec.toNat_or, toNat_and_segment, htarget, jumpTargetOf, ← Nat.shiftLeft_eq,
    Nat.shiftLeft_add_eq_or_of_lt (by omega)]

/-- Settles O50: the step commits the jump's write of `nextPc`. -/
theorem jumpTakesEffectOnTheNextFetch : Obligations.JumpTakesEffectOnTheNextFetch :=
  fun _ s target hreset hi => ⟨_, stepWith_of_exec hreset hi rfl, State.jumpTarget_toNat s target, rfl, rfl,
    fun _ => State.readReg_commit_of_ne _⟩

end Sys2Proof.Machine
end

section
/-! What a step's result depends on (40_step.md R93). -/

namespace Sys2Proof.Machine

open Sys2Proof.Safety

variable {s s' t t' : State}

/-- States that agree on the run state differ in `hi`, `running` and the byte-order tag alone. -/
theorem eq_of_agreeOnRunState (h : AgreeOnRunState s s') :
    s' = { s with hi := s'.hi, running := s'.running, imageByteOrder := s'.imageByteOrder } := by
  obtain ⟨hx, hpc, hnextPc, hlo, hcycles, hworking, himage, hreset⟩ := h
  rw [← hx, ← hpc, ← hnextPc, ← hlo, ← hcycles, ← hworking, ← himage, ← hreset]

/-- A fetch reads `pc` and the buffers alone (R81). -/
theorem State.fetch_eq_of_agreeOnRunState (h : AgreeOnRunState s s') : s'.fetch = s.fetch := by
  rw [eq_of_agreeOnRunState h]
  rfl

/-- An execute phase reads none of `hi`, `running` and the tag, and what it writes does not depend on them. -/
theorem exec_agreeOnRunState {i : Instr} (h : AgreeOnRunState s s') (hs : exec i s = .next t) :
    ∃ t', exec i s' = .next t' ∧ AgreeOnRunState t t' := by
  rw [eq_of_agreeOnRunState h]
  cases i
  all_goals
    cases hs
    exact ⟨_, rfl, rfl, rfl, rfl, rfl, rfl, rfl, rfl, rfl⟩

/-- Nor does the end of a step read them (R87 to R89). -/
theorem State.commit_agreeOnRunState (h : AgreeOnRunState t t') : AgreeOnRunState t.commit t'.commit := by
  rw [eq_of_agreeOnRunState h]
  exact ⟨rfl, rfl, rfl, rfl, rfl, rfl, rfl, rfl⟩

/-- Settles O7: the two steps fetch the same word, and their execute phases and commits agree. -/
theorem stepDependsOnlyOnTheRunState : Obligations.StepDependsOnlyOnTheRunState := by
  intro c s s' t hagree h
  obtain ⟨hreset, u, hu, rfl⟩ := (stepWith_next_iff c s t).mp h
  have hreset' : s'.wasReset = true := by rw [eq_of_agreeOnRunState hagree, hreset]
  have hfetch : decode c s'.fetch = decode c s.fetch := by rw [State.fetch_eq_of_agreeOnRunState hagree]
  obtain ⟨u', hu', hagree'⟩ := exec_agreeOnRunState hagree hu
  exact ⟨u'.commit, stepWith_of_exec hreset' hfetch hu', State.commit_agreeOnRunState hagree'⟩

end Sys2Proof.Machine
end

section
/-! The immediate instructions: the operand forms and the results as numbers, and the register each execute phase
writes (30_encoding.md R71, 41_immediate.md R94 to R98). -/

namespace Sys2Proof.Machine

open Sys2Proof.Safety

/-- Zero extension keeps the number (R71). -/
theorem zimm_toNat (imm : BitVec 16) : (zimm imm).toNat = imm.toNat :=
  BitVec.toNat_setWidth_of_le (by decide)

/-- The upper immediate fits in 32 bits, so the shift loses nothing (R71, R98). -/
theorem luimm_toNat (imm : BitVec 16) : (luimm imm).toNat = imm.toNat * 2 ^ 16 := by
  rw [luimm, BitVec.toNat_shiftLeft, ← zimm, zimm_toNat, Nat.shiftLeft_eq, Nat.mod_eq_of_lt (by omega)]

/-- The sum of ADDI and ADDIU wraps at 64 bits (R85, R94, R95). -/
theorem add_simm_toNat (v : Word) (imm : BitVec 16) :
    (v + simm imm).toNat = (v.toNat + sext64 imm.toNat) % 2 ^ 64 := by
  rw [BitVec.toNat_add, simm_toNat]

/-- The result of ANDI (R96). -/
theorem and_zimm_toNat (v : Word) (imm : BitVec 16) : (v &&& zimm imm).toNat = v.toNat &&& imm.toNat := by
  rw [BitVec.toNat_and, zimm_toNat]

/-- The result of ORI (R97). -/
theorem or_zimm_toNat (v : Word) (imm : BitVec 16) : (v ||| zimm imm).toNat = v.toNat ||| imm.toNat := by
  rw [BitVec.toNat_or, zimm_toNat]

/-- The whole effect of a register write, the value given as a number (R86). -/
theorem onlyWritesRegister_of_toNat_eq (s : State) (i : RegIx) {v : Word} {n : Nat} (h : v.toNat = n) :
    OnlyWritesRegister i n s (s.writeReg i v) :=
  h ▸ onlyWritesRegister_writeReg s i v

/-- The execute phase that ADDI and ADDIU share (R94, R95). -/
theorem onlyWritesRegister_addImmediate (rt rs : RegIx) (imm : BitVec 16) (s : State) :
    OnlyWritesRegister rt (((s.readReg rs).toNat + sext64 imm.toNat) % 2 ^ 64) s (addImmediate rt rs imm s) :=
  onlyWritesRegister_of_toNat_eq s rt (add_simm_toNat _ imm)

/-- LUI's word may hold any rs field, which the encoder leaves 0 (R75, R98). -/
theorem decode_lui (c : Config) (rs rt : RegIx) (imm : BitVec 16) :
    decode c (encodeI 0x0F#6 rs rt imm) = .lui rt imm := by
  simp only [decode, opField_encodeI, rtField_encodeI, immField_encodeI]

/-- Settles O36: the word is the encoder's, and the execute phase writes the sum to rt. -/
theorem addiResult : Obligations.AddiResult :=
  fun c rt rs imm s => ⟨decodeOfEncodeIsTheInstruction c (.addi rt rs imm) rfl,
    _, rfl, onlyWritesRegister_addImmediate rt rs imm s⟩

/-- Settles O37: the words are the encoder's, but for the rs field of LUI; ADDIU writes the sum ADDI writes. -/
theorem addiuAndiLuiResults : Obligations.AddiuAndiLuiResults := by
  intro c rt rs imm s
  refine ⟨decodeOfEncodeIsTheInstruction c (.addiu rt rs imm) rfl,
    decodeOfEncodeIsTheInstruction c (.andi rt rs imm) rfl, decode_lui c rs rt imm, ?addiu, ?andi, ?lui⟩
  case addiu => exact ⟨_, rfl, onlyWritesRegister_addImmediate rt rs imm s⟩
  case andi => exact ⟨_, rfl, onlyWritesRegister_of_toNat_eq s rt (and_zimm_toNat _ imm)⟩
  case lui => exact ⟨_, rfl, onlyWritesRegister_of_toNat_eq s rt (luimm_toNat imm)⟩

/-- Settles O38: the word is the encoder's, and the execute phase writes the disjunction to rt. -/
theorem oriResult : Obligations.OriResult :=
  fun c rt rs imm s => ⟨decodeOfEncodeIsTheInstruction c (.ori rt rs imm) rfl,
    _, rfl, onlyWritesRegister_of_toNat_eq s rt (or_zimm_toNat _ imm)⟩

end Sys2Proof.Machine
end

section
/-! The control transfers: the targets and the link as numbers, and the whole effect of each execute phase
(30_encoding.md R71, 42_control.md R99 to R105). -/

namespace Sys2Proof.Machine

open Sys2Proof.Safety

/-- The link value wraps at 64 bits (R105). -/
theorem State.linkValue_toNat (s : State) : s.linkValue.toNat = (s.pc.toNat + 8) % 2 ^ 64 :=
  BitVec.toNat_add s.pc 8

/-- The signed reading of an immediate is the spec's `simm_int` (R71). -/
theorem toInt_eq_simmInt (imm : BitVec 16) : imm.toInt = simmInt imm.toNat := by
  rw [BitVec.toInt_eq_toNat_cond, simmInt]
  split_ifs <;> omega

/-- The branch target wraps at 64 bits, at both ends (R71, R101). -/
theorem State.branchTarget_toNat (s : State) (imm : BitVec 16) :
    ((s.branchTarget imm).toNat : Int) = branchTargetOf s imm := by
  have hfour : (4 : Word).toNat = 4 := rfl
  rw [State.branchTarget, BitVec.toNat_add, BitVec.toNat_add, BitVec.toNat_ofInt, toInt_eq_simmInt, hfour,
    branchTargetOf]
  omega

/-- The branches compare all 64 bits (R101, R102). -/
theorem State.regsEqual_iff (s : State) (rs rt : RegIx) :
    s.regsEqual rs rt = true ↔ (s.readReg rs).toNat = (s.readReg rt).toNat :=
  beq_iff_eq.trans BitVec.toNat_inj.symm

/-- The whole effect of a write of `nextPc`, the target given as a number. -/
theorem onlySetsNextPc_of_toNat_eq (s : State) {v : Word} {n : Int} (h : (v.toNat : Int) = n) :
    OnlySetsNextPc n s (s.setNextPc v) :=
  h ▸ onlySetsNextPc_setNextPc s v

/-- The whole effect of a link and a jump, the target given as a number (R100, R104). -/
theorem onlyLinksAndJumps_of_toNat_eq (s : State) (rd : RegIx) {v : Word} {n : Nat} (h : v.toNat = n) :
    OnlyLinksAndJumps rd ((s.pc.toNat + 8) % 2 ^ 64) n s ((s.writeReg rd s.linkValue).setNextPc v) := by
  rw [← State.linkValue_toNat]
  obtain ⟨hreg, -, hkeeps⟩ := onlyWritesRegister_writeReg s rd s.linkValue
  exact ⟨hreg, h, hkeeps⟩

/-- JR's word may hold any rt, rd and sa fields, which the encoder leaves 0 (R75, R103). -/
theorem decode_jr (c : Config) (rs rt rd sa : RegIx) : decode c (encodeR rs rt rd sa 0x08#6) = .jr rs := by
  simp only [decode, decodeSpecial, opField_encodeR, functField_encodeR, rsField_encodeR]

/-- JALR's word may hold any rt and sa fields, which the encoder leaves 0 (R75, R104). -/
theorem decode_jalr (c : Config) (rs rt rd sa : RegIx) : decode c (encodeR rs rt rd sa 0x09#6) = .jalr rd rs := by
  simp only [decode, decodeSpecial, opField_encodeR, functField_encodeR, rsField_encodeR, rdField_encodeR]

/-- Settles O39: the words are the encoder's, and both instructions jump to one target. -/
theorem jumpAndLinkResults : Obligations.JumpAndLinkResults := by
  intro c target s
  have htarget := State.jumpTarget_toNat s target
  refine ⟨decodeOfEncodeIsTheInstruction c (.j target) rfl, decodeOfEncodeIsTheInstruction c (.jal target) rfl,
    ?j, ?jal⟩
  case j => exact ⟨_, rfl, onlySetsNextPc_of_toNat_eq s (congrArg Nat.cast htarget)⟩
  case jal => exact ⟨_, rfl, onlyLinksAndJumps_of_toNat_eq s 31#5 htarget⟩

/-- Settles O40: the words are the encoder's, and each branch writes the target or the old `nextPc`. -/
theorem branchResults : Obligations.BranchResults := by
  intro c rs rt imm s
  refine ⟨decodeOfEncodeIsTheInstruction c (.beq rs rt imm) rfl,
    decodeOfEncodeIsTheInstruction c (.bne rs rt imm) rfl,
    ⟨_, rfl, onlySetsNextPc_of_toNat_eq s ?beq⟩, ⟨_, rfl, onlySetsNextPc_of_toNat_eq s ?bne⟩⟩
  all_goals simp only [State.regsEqual_iff, ne_eq, ite_not]
  case beq =>
    split
    · exact State.branchTarget_toNat s imm
    · rfl
  case bne =>
    split
    · rfl
    · exact State.branchTarget_toNat s imm

/-- Settles O41: the target is the old `x[rs]`, which JALR reads before it writes the link. -/
theorem registerJumpResults : Obligations.RegisterJumpResults :=
  fun c rs rt rd sa s => ⟨decode_jr c rs rt rd sa, decode_jalr c rs rt rd sa,
    ⟨_, rfl, onlySetsNextPc_setNextPc s (s.readReg rs)⟩, ⟨_, rfl, onlyLinksAndJumps_of_toNat_eq s rd rfl⟩⟩

end Sys2Proof.Machine
end

section
/-! The load and the store: the word loaded and the bytes stored as the address map says them, at the address the
instruction computes (43_loadstore.md R106 to R108). -/

namespace Sys2Proof.Machine

open Sys2Proof.Safety

/-- What LW writes to rt: zero extension keeps the number of the word the map gives (R106). -/
theorem State.loadedWord_toNat (s : State) (rs : RegIx) (imm : BitVec 16) :
    ((s.read32 (s.effectiveAddress rs imm)).setWidth 64).toNat = mapRead s (addressOf s rs imm % 2 ^ 32) := by
  rw [BitVec.toNat_setWidth_of_le (by decide), readFollowsTheAddressMap, State.effectiveAddress_toNat]

/-- Settles O42: the word is the encoder's, and the execute phase writes the loaded word to rt. -/
theorem loadWordResult : Obligations.LoadWordResult :=
  fun c rt rs imm s => ⟨decodeOfEncodeIsTheInstruction c (.lw rt imm rs) rfl, State.effectiveAddress_toNat s rs imm,
    _, rfl, onlyWritesRegister_of_toNat_eq s rt (State.loadedWord_toNat s rs imm)⟩

/-- Settles O43: the word is the encoder's, and the execute phase is write32 at the effective address, which changes
`working` alone. -/
theorem storeWordResult : Obligations.StoreWordResult := by
  intro c rt rs imm s
  have haddr := State.effectiveAddress_toNat s rs imm
  obtain ⟨hbytes, hregs, hnextPc, hhilo, hframe, -⟩ :=
    writeFollowsTheAddressMap s (s.effectiveAddress rs imm) (s.readReg rt)
  rw [haddr] at hbytes
  exact ⟨decodeOfEncodeIsTheInstruction c (.sw rt imm rs) rfl, haddr, _, rfl, hbytes, hregs, hnextPc, hhilo, hframe⟩

end Sys2Proof.Machine
end

section
/-! The register ALU: the words with any value of the fields they ignore, the results as numbers, and the register each
execute phase writes (30_encoding.md R74, R75, 44_register_alu.md R109 to R119). -/

namespace Sys2Proof.Machine

open Sys2Proof.Safety

section Words
variable (c : Config) (rs rt rd : RegIx) (sa : BitVec 5)

/-- A word of opcode 0 goes to the function map (R73, R74). -/
theorem decode_encodeR (funct : BitVec 6) :
    decode c (encodeR rs rt rd sa funct) = decodeSpecial c (encodeR rs rt rd sa funct) := by
  simp only [decode, opField_encodeR]

/-- The words of SLL and SRL may hold any rs field, which the encoder leaves 0 (R75, R109, R110). -/
theorem decode_shifts : decode c (encodeR rs rt rd sa 0x00#6) = .sll rd rt sa ∧
    decode c (encodeR rs rt rd sa 0x02#6) = .srl rd rt sa := by
  simp only [decode_encodeR, decodeSpecial, functField_encodeR, rtField_encodeR, rdField_encodeR, saField_encodeR,
    and_self]

/-- MFLO's word may hold any rs, rt and sa fields, which the encoder leaves 0 (R75, R111). -/
theorem decode_mflo : decode c (encodeR rs rt rd sa 0x12#6) = .mflo rd := by
  simp only [decode_encodeR, decodeSpecial, functField_encodeR, rdField_encodeR]

/-- The words of MULTU may hold any rd and sa fields, which the encoder leaves 0; the second is a word of the map only
under DECODE_FUNCT19 (R75, R112, R113). -/
theorem decode_multiplies : decode c (encodeR rs rt rd sa 0x18#6) = .multu rs rt ∧
    decode c (encodeR rs rt rd sa 0x19#6) =
      if c.decodeFunct19 then .multu19 rs rt else .unrecognised (encodeR rs rt rd sa 0x19#6) := by
  simp only [decode_encodeR, decodeSpecial, functField_encodeR, rsField_encodeR, rtField_encodeR, and_self]

/-- The words of ADD and SUB may hold any sa field, which the encoder leaves 0 (R75, R114, R116). -/
theorem decode_addSub : decode c (encodeR rs rt rd sa 0x20#6) = .add rd rs rt ∧
    decode c (encodeR rs rt rd sa 0x22#6) = .sub rd rs rt := by
  simp only [decode_encodeR, decodeSpecial, functField_encodeR, rsField_encodeR, rtField_encodeR, rdField_encodeR,
    and_self]

/-- The words of ADDU, SUBU, AND and OR may hold any sa field, which the encoder leaves 0 (R75, R115 to R119). -/
theorem decode_adduSubuAndOr : decode c (encodeR rs rt rd sa 0x21#6) = .addu rd rs rt ∧
    decode c (encodeR rs rt rd sa 0x23#6) = .subu rd rs rt ∧
    decode c (encodeR rs rt rd sa 0x24#6) = .and rd rs rt ∧
    decode c (encodeR rs rt rd sa 0x25#6) = .or rd rs rt := by
  simp only [decode_encodeR, decodeSpecial, functField_encodeR, rsField_encodeR, rtField_encodeR, rdField_encodeR,
    and_self]

end Words

/-- A left shift drops what passes bit 63 (R109). -/
theorem shiftLeft_toNat_eq_mul (v : Word) (k : Nat) : (v <<< k).toNat = v.toNat * 2 ^ k % 2 ^ 64 := by
  rw [BitVec.toNat_shiftLeft, Nat.shiftLeft_eq]

/-- A logical right shift rounds down (R110). -/
theorem ushiftRight_toNat_eq_div (v : Word) (k : Nat) : (v >>> k).toNat = v.toNat / 2 ^ k := by
  rw [BitVec.toNat_ushiftRight, Nat.shiftRight_eq_div_pow]

/-- The difference wraps at 64 bits (R85, R116, R117). -/
theorem sub_toNat_eq_mod (v w : Word) : (v - w).toNat = (v.toNat + 2 ^ 64 - w.toNat) % 2 ^ 64 := by
  rw [BitVec.toNat_sub]
  omega

/-- The mask of MULTU keeps the low 32 bits (R112). -/
theorem and_low32_toNat (v : Word) : (v &&& 0xFFFFFFFF#64).toNat = v.toNat % 2 ^ 32 := by
  rw [BitVec.toNat_and]
  exact Nat.and_two_pow_sub_one_eq_mod v.toNat 32

section Effects
variable (s : State) (rd rs rt : RegIx)

/-- The execute phase that ADD and ADDU share (R114, R115). -/
theorem onlyWritesRegister_addRegisters :
    OnlyWritesRegister rd (((s.readReg rs).toNat + (s.readReg rt).toNat) % 2 ^ 64) s (addRegisters rd rs rt s) :=
  onlyWritesRegister_of_toNat_eq s rd (BitVec.toNat_add _ _)

/-- The execute phase that SUB and SUBU share (R116, R117). -/
theorem onlyWritesRegister_subRegisters :
    OnlyWritesRegister rd (((s.readReg rs).toNat + 2 ^ 64 - (s.readReg rt).toNat) % 2 ^ 64) s
      (subRegisters rd rs rt s) :=
  onlyWritesRegister_of_toNat_eq s rd (sub_toNat_eq_mod _ _)

/-- `lo` takes the low half of the product (R112). -/
theorem multiplyUnsigned_lo_toNat : (multiplyUnsigned rs rt s).lo.toNat =
    bits ((s.readReg rs).toNat * (s.readReg rt).toNat % 2 ^ 64) 31 0 := by
  rw [multiplyUnsigned, State.setHiLo_lo, and_low32_toNat, BitVec.toNat_mul, bits, Nat.pow_zero, Nat.div_one]

/-- `hi` takes the high half of the product (R112). -/
theorem multiplyUnsigned_hi_toNat : (multiplyUnsigned rs rt s).hi.toNat =
    bits ((s.readReg rs).toNat * (s.readReg rt).toNat % 2 ^ 64) 63 32 := by
  rw [multiplyUnsigned, State.setHiLo_hi, and_low32_toNat, ushiftRight_toNat_eq_div, BitVec.toNat_mul, bits]

end Effects

/-- Settles O44: each execute phase writes the shifted 64-bit value to rd. -/
theorem shiftResults : Obligations.ShiftResults := by
  intro c rs rt rd sa s
  obtain ⟨hsll, hsrl⟩ := decode_shifts c rs rt rd sa
  exact ⟨hsll, hsrl, ⟨_, rfl, onlyWritesRegister_of_toNat_eq s rd (shiftLeft_toNat_eq_mul _ _)⟩,
    ⟨_, rfl, onlyWritesRegister_of_toNat_eq s rd (ushiftRight_toNat_eq_div _ _)⟩⟩

/-- Settles O45: the execute phase writes `lo` to rd. -/
theorem moveFromLoResult : Obligations.MoveFromLoResult :=
  fun c rs rt rd sa s => ⟨decode_mflo c rs rt rd sa, _, rfl, onlyWritesRegister_writeReg s rd s.lo⟩

/-- Settles O46: both encodings run one execute phase, which writes `hi` and `lo` alone. -/
theorem multiplyResults : Obligations.MultiplyResults := by
  intro c rs rt rd sa s
  obtain ⟨hmultu, hmultu19⟩ := decode_multiplies c rs rt rd sa
  refine ⟨hmultu, hmultu19, fun i hi => ?_⟩
  have hexec : exec i s = .next (multiplyUnsigned rs rt s) := by
    obtain rfl | rfl := hi
    · rfl
    · rfl
  exact ⟨_, hexec, multiplyUnsigned_lo_toNat s rs rt, multiplyUnsigned_hi_toNat s rs rt, fun _ => rfl, rfl,
    fun _ => rfl, rfl, rfl, rfl, fun _ => rfl, rfl, rfl⟩

/-- Settles O47: the execute phases write the sum and the difference to rd. -/
theorem addSubResults : Obligations.AddSubResults := by
  intro c rs rt rd sa s
  obtain ⟨hadd, hsub⟩ := decode_addSub c rs rt rd sa
  exact ⟨hadd, hsub, ⟨_, rfl, onlyWritesRegister_addRegisters s rd rs rt⟩,
    ⟨_, rfl, onlyWritesRegister_subRegisters s rd rs rt⟩⟩

/-- Settles O48: ADDU and SUBU write what ADD and SUB write, AND and OR the bitwise results. -/
theorem adduSubuAndOrResults : Obligations.AdduSubuAndOrResults := by
  intro c rs rt rd sa s
  obtain ⟨haddu, hsubu, hand, hor⟩ := decode_adduSubuAndOr c rs rt rd sa
  exact ⟨haddu, hsubu, hand, hor, ⟨_, rfl, onlyWritesRegister_addRegisters s rd rs rt⟩,
    ⟨_, rfl, onlyWritesRegister_subRegisters s rd rs rt⟩,
    ⟨_, rfl, onlyWritesRegister_of_toNat_eq s rd (BitVec.toNat_and _ _)⟩,
    ⟨_, rfl, onlyWritesRegister_of_toNat_eq s rd (BitVec.toNat_or _ _)⟩⟩

end Sys2Proof.Machine
end

section
/-! `reset()`, and a step from a state built by hand (70_reset_and_hazards.md R133, R134, R139). -/

namespace Sys2Proof.Machine

open Sys2Proof.Safety

variable {c : Config} {s t : State}

/-- Settles O28: the registers are a cleared file, and the other fields are those `reset()` writes or leaves. -/
theorem resetClearsTheCoreAndKeepsMemory : Obligations.ResetClearsTheCoreAndKeepsMemory :=
  fun _ _ => ⟨State.readReg_of_x_eq_replicate rfl, rfl, rfl, rfl, rfl, rfl, rfl, rfl, rfl, rfl⟩

/-- The end of a step restores r0, so only the flag and the buffers are left to show (R87). -/
theorem launch_commit (hreset : s.wasReset = true) (hworking : Memory.wf workingSize s.working = true)
    (himage : Memory.wf imageSize s.image = true) : Launch s.commit where
  regZero := State.readReg_commit s 0#5
  wasReset := hreset
  working := hworking
  image := himage

/-- A step from a launch state, whatever `nextPc`, `hi` and `lo` are, leaves a launch state. -/
theorem launch_stepWith (hs : Launch s) (h : stepWith c s = .next t) : Launch t := by
  obtain ⟨rd, v, n, -, rfl⟩ | ⟨rt, imm, rs, -, rfl⟩ | ⟨rs, rt, -, rfl⟩ := stepWith_cases h
  · exact launch_commit hs.wasReset hs.working hs.image
  · exact launch_commit hs.wasReset (storeWorking_wf _ _ hs.working) hs.image
  · exact launch_commit hs.wasReset hs.working hs.image

/-- Settles O3: a launch state counts as reset, so its step completes, and the step keeps what a launch state is. -/
theorem launchStatesStepToLaunchStates : Obligations.LaunchStatesStepToLaunchStates := by
  intro c s hs
  obtain ⟨t, ht, -⟩ := stepAlwaysCompletes c s hs.wasReset
  exact ⟨t, ht, launch_stepWith hs ht⟩

end Sys2Proof.Machine
end

section
/-! The entry handshake (70_reset_and_hazards.md R137). -/

namespace Sys2Proof.Machine

open Sys2Proof.Safety

/-- The entry address is the word at image offset 0x34 where the image reaches past 0x38, and DEFAULT_ENTRY otherwise,
zero-extended (R137). -/
theorem State.entryAddress_toNat (c : Config) (s : State) (n : Nat) :
    (s.entryAddress c n).toNat = if n > 0x38 then be32 s.image 0x34 else c.defaultEntry.toNat := by
  have hentry : s.read32 0x10000034#64 = s.image.readWord 0x34 := State.read32_of_imageOffset rfl
  unfold State.entryAddress
  split
  · rw [hentry, BitVec.toNat_setWidth_of_le (by decide), Memory.readWord_toNat]
  · exact BitVec.toNat_setWidth_of_le (by decide)

/-- Settles O34: the handshake writes the entry address and its successor, and no other field. -/
theorem handshakeSeedsTheProgramCounters : Obligations.HandshakeSeedsTheProgramCounters :=
  fun c s n => ⟨State.entryAddress_toNat c s n, rfl, rfl, rfl, rfl, rfl, rfl, rfl, rfl, rfl, rfl⟩

end Sys2Proof.Machine
end

section
/-! The word a hand-built state fetches (70_reset_and_hazards.md R139; log entry 7): where `withFetchWord` places it, by
the row of the address map `pc` falls in. -/

namespace Sys2Proof.Machine

open Sys2Proof.Safety

variable {s : State} {p : Nat}

/-- A word is its own table word, of 32 bits. -/
theorem tableWord_toNat (w : Word32) : tableWord 32 w.toNat = w := by
  rw [tableWord, Nat.mod_eq_of_lt w.isLt, BitVec.ofNat_toNat, BitVec.setWidth_eq]

/-- An address reaches at most one of the two buffers (R51). -/
theorem imageOffset_eq_none_of_workingOffset {a : Nat} (h : workingOffset a = some p) : imageOffset a = none := by
  unfold workingOffset at h
  split_ifs at h <;> exact if_neg (by omega)

/-- Where the map reaches `image`, the word is placed there. -/
theorem State.placeFetch_of_imageOffset (w : Word32) (h : imageOffset (s.pc.toNat % 2 ^ 32) = some p) :
    s.placeFetch w = { s with image := s.image.writeWord p w, wasReset := true } := by
  rw [← virtualAddress_toNat, imageOffset_eq_some_iff] at h
  obtain ⟨⟨hwindow, hbounds⟩, rfl⟩ := h
  simp [State.placeFetch, hwindow, hbounds]

/-- Where the map reaches `working`, the word is placed there. -/
theorem State.placeFetch_of_workingOffset (w : Word32) (h : workingOffset (s.pc.toNat % 2 ^ 32) = some p) :
    s.placeFetch w = { s with working := s.working.writeWord p w, wasReset := true } := by
  rw [← virtualAddress_toNat] at h
  have hwindow := inWindow_eq_false_of_workingOffset h
  obtain ⟨hbounds, rfl⟩ := (workingOffset_eq_some_iff _ _).mp h
  simp [State.placeFetch, hwindow, hbounds]

/-- Where nothing backs `pc`, it moves to 0x8000_1000 and the word is placed there (log entry 7). -/
theorem State.placeFetch_of_unbacked (w : Word32) (himage : imageOffset (s.pc.toNat % 2 ^ 32) = none)
    (hworking : workingOffset (s.pc.toNat % 2 ^ 32) = none) :
    s.placeFetch w = { s with
      pc := 0x80001000#64, nextPc := 0x80001004#64, working := s.working.writeWord 0x1000 w, wasReset := true } := by
  rw [← virtualAddress_toNat, imageOffset_eq_none_iff, ← Bool.and_eq_true] at himage
  rw [← virtualAddress_toNat, workingOffset_eq_none_iff] at hworking
  simp only [State.placeFetch, himage, hworking, Bool.false_eq_true, if_false]

/-- A word written changes no byte outside its four. -/
theorem Memory.readByte_writeWord_outside (m : Memory) (w : Word32) {o : Nat} (h : o < p ∨ p + 4 ≤ o) :
    (m.writeWord p w).readByte o = m.readByte o := by
  rw [Memory.writeWord, Memory.readByte_writeBytes, wordBytes_length, if_neg (by omega)]

/-- A fetch where the map reaches `image` reads the word placed there. -/
theorem State.fetch_eq_of_image_eq_writeWord {t : State} {m : Memory} {w : Word32}
    (hpc : imageOffset (t.pc.toNat % 2 ^ 32) = some p)
    (himage : t.image = m.writeWord p w) : t.fetch = w := by
  rw [State.fetch, State.read32_of_imageOffset hpc, himage, Memory.readWord_writeWord]

/-- A fetch where the map reaches `working` reads the word placed there. -/
theorem State.fetch_eq_of_working_eq_writeWord {t : State} {m : Memory} {w : Word32}
    (hpc : workingOffset (t.pc.toNat % 2 ^ 32) = some p) (hworking : t.working = m.writeWord p w) : t.fetch = w := by
  rw [State.fetch, State.read32_of_workingOffset hpc, hworking, Memory.readWord_writeWord]

/-- Settles O19: one case for each buffer `pc` reaches, and one for none; the clauses of the other two cases do not
apply. -/
theorem placedWordIsFetched : Obligations.PlacedWordIsFetched := by
  rintro s _ w rfl
  rw [State.withFetchWord, tableWord_toNat]
  cases himage : imageOffset (s.pc.toNat % 2 ^ 32) with
  | some p =>
    have hworking (q : Nat) : workingOffset (s.pc.toNat % 2 ^ 32) ≠ some q := fun h =>
      Option.some_ne_none p (himage.symm.trans (imageOffset_eq_none_of_workingOffset h))
    rw [State.placeFetch_of_imageOffset w himage]
    refine ⟨State.fetch_eq_of_image_eq_writeWord himage rfl, rfl, rfl, rfl, rfl, rfl, rfl, rfl, ?_,
      fun q h => absurd h (hworking q), nofun⟩
    rintro _ ⟨⟩
    exact ⟨rfl, rfl, rfl, fun _ => Memory.readByte_writeWord_outside _ _⟩
  | none =>
    cases hworking : workingOffset (s.pc.toNat % 2 ^ 32) with
    | some p =>
      rw [State.placeFetch_of_workingOffset w hworking]
      refine ⟨State.fetch_eq_of_working_eq_writeWord hworking rfl, rfl, rfl, rfl, rfl, rfl, rfl, rfl, nofun, ?_,
        nofun⟩
      rintro _ ⟨⟩
      exact ⟨rfl, rfl, rfl, fun _ => Memory.readByte_writeWord_outside _ _⟩
    | none =>
      rw [State.placeFetch_of_unbacked w himage hworking]
      have hmoved : workingOffset ((0x80001000#64).toNat % 2 ^ 32) = some 0x1000 := by decide
      exact ⟨State.fetch_eq_of_working_eq_writeWord hmoved rfl, rfl, rfl, rfl, rfl, rfl, rfl, rfl, nofun, nofun,
        fun _ _ => ⟨rfl, rfl, rfl, fun _ => Memory.readByte_writeWord_outside _ _⟩⟩

end Sys2Proof.Machine
end

section
/-! A run past its stop address (70_reset_and_hazards.md R140): the one-instruction loop only counts. -/

namespace Sys2Proof.Machine

open Sys2Proof.Safety

variable {s : State}

/-- A run whose first step completes goes on from the state that step answers. -/
theorem run_succ_of_step {M : Host.Core} {u v : M.State} (k : Nat) (h : M.step u = .next v) :
    M.run (k + 1) u = M.run k v := by
  rw [Host.Core.run, h]

/-- A run of at least one step completes when that step does and the run of the rest does. -/
theorem run_succ_next_iff {M : Host.Core} {u w : M.State} {k : Nat} :
    M.run (k + 1) u = .next w ↔ ∃ v, M.step u = .next v ∧ M.run k v = .next w := by
  cases h : M.step u <;> simp [Host.Core.run, h]

/-- A run that completes its first k steps goes on from where they end. -/
theorem run_add {M : Host.Core} {u v : M.State} {k : Nat} (j : Nat) (h : M.run k u = .next v) :
    M.run (k + j) u = M.run j v := by
  induction k generalizing u with
  | zero => cases h; rw [Nat.zero_add]
  | succ k ih =>
    obtain ⟨w, hstep, hrest⟩ := run_succ_next_iff.mp h
    rw [Nat.succ_add, run_succ_of_step _ hstep, ih hrest]

/-- `J` to its own address: the segment and the target field together hold an aligned 32-bit `pc` (R99). -/
theorem State.jumpTarget_self (hlow : s.pc.toNat < 2 ^ 32) (haligned : s.pc.toNat % 4 = 0) :
    s.jumpTarget (BitVec.ofNat 26 (s.pc.toNat / 4)) = s.pc := by
  apply BitVec.eq_of_toNat_eq
  rw [State.jumpTarget_toNat, jumpTargetOf, BitVec.toNat_ofNat, bits]
  omega

/-- A branch by -1 goes to its own address (R101). -/
theorem State.branchTarget_self (s : State) : s.branchTarget 0xFFFF#16 = s.pc := by
  have hback : (4 : Word) + BitVec.ofInt 64 ((0xFFFF#16).toInt * 4) = 0#64 := by decide
  rw [State.branchTarget, BitVec.add_assoc, hback, BitVec.add_zero]

/-- The execute phase of a one-instruction loop makes `nextPc` its own address, and changes nothing else (R140). -/
theorem exec_of_atSelfLoop (h : AtSelfLoop s) :
    exec (decode Config.chosen s.fetch) s = .next (s.setNextPc s.pc) := by
  obtain ⟨hlow, haligned, hj⟩ | hbeq := h
  · rw [hj]
    exact congrArg (fun v => Host.Outcome.next (s.setNextPc v)) (State.jumpTarget_self hlow haligned)
  · have hequal : s.regsEqual 0#5 0#5 = true := (State.regsEqual_iff s _ _).mpr rfl
    rw [hbeq, exec, execBeq, if_pos hequal, State.branchTarget_self]

/-- The end of a step that stays at `pc` only counts, where r0 is 0 and `nextPc` is `pc + 4` already (R87 to R89). -/
theorem State.commit_setNextPc_self (hs : Inv s) :
    (s.setNextPc s.pc).commit = { s with cycles := s.cycles + 1 } := by
  have hx : s.x.set 0 0#64 = s.x := hs.regZero ▸ Vector.set_getElem_self _
  have hcommit : (s.setNextPc s.pc).commit =
      { s with x := s.x.set 0 0#64, nextPc := s.pc + 4, cycles := s.cycles + 1 } := rfl
  rw [hcommit, hx, ← hs.nextPc]

/-- A step at a one-instruction loop only counts. -/
theorem step_of_atSelfLoop (hs : Inv s) (hreset : s.wasReset = true) (h : AtSelfLoop s) :
    step s = .next { s with cycles := s.cycles + 1 } := by
  rw [← State.commit_setNextPc_self hs]
  exact stepWith_of_exec hreset rfl (exec_of_atSelfLoop h)

/-- A run at a one-instruction loop only counts: neither the invariant nor the loop depends on the count, so each step
is again one from the loop. -/
theorem run_of_atSelfLoop (j : Nat) (hs : Inv s) (hreset : s.wasReset = true) (h : AtSelfLoop s) :
    Host.Core.run core j s = .next { s with cycles := s.cycles + j } := by
  induction j generalizing s with
  | zero => rfl
  | succ j ih =>
    have hcycles : s.cycles + (j + 1) = s.cycles + 1 + j := by omega
    have hinv : Inv { s with cycles := s.cycles + 1 } := { hs with }
    rw [hcycles]
    exact (run_succ_of_step j (step_of_atSelfLoop hs hreset h)).trans (ih hinv hreset h)

/-- Settles O20: the run of k + j steps is one of j steps from the loop it stopped at. -/
theorem runPastTheStopOnlyCounts : Obligations.RunPastTheStopOnlyCounts := by
  intro stop k j s t hstop hinv hreset hloop
  obtain ⟨hrun, -⟩ := hstop
  exact (run_add j hrun).trans (run_of_atSelfLoop j hinv hreset hloop)

end Sys2Proof.Machine
end

section
/-! The run flag, which a step neither reads nor writes (40_step.md R92, decision D21). -/

namespace Sys2Proof.Machine

variable {c : Config} {s t : State}

/-- A fetch does not read the run flag (R81). -/
@[simp] theorem State.fetch_setRunning (s : State) (b : Bool) : (s.setRunning b).fetch = s.fetch := rfl

/-- The end of a step carries the run flag along (R87 to R89). -/
theorem State.commit_setRunning (s : State) (b : Bool) : (s.setRunning b).commit = s.commit.setRunning b := rfl

/-- No execute phase reads the run flag, and each carries it along. -/
theorem exec_setRunning {i : Instr} (b : Bool) (h : exec i s = .next t) :
    exec i (s.setRunning b) = .next (t.setRunning b) := by
  cases i
  all_goals
    cases h
    rfl

/-- None of the three effects of a step writes the run flag. -/
theorem stepWith_running (h : stepWith c s = .next t) : t.running = s.running := by
  obtain ⟨_, _, _, -, rfl⟩ | ⟨_, _, _, -, rfl⟩ | ⟨_, _, -, rfl⟩ := stepWith_cases h
  all_goals rfl

/-- A step from a state with another run flag answers the same state with that flag: it fetches the same word, and the
execute phase and the commit carry the flag along. -/
theorem stepWith_setRunning (b : Bool) (h : stepWith c s = .next t) :
    stepWith c (s.setRunning b) = .next (t.setRunning b) := by
  obtain ⟨hreset, u, hu, rfl⟩ := (stepWith_next_iff c s t).mp h
  have hfetch : decode c (s.setRunning b).fetch = decode c s.fetch := by rw [State.fetch_setRunning]
  rw [← State.commit_setRunning]
  exact stepWith_of_exec hreset hfetch (exec_setRunning b hu)

/-- Settles O6: the flag is not written, and not read. -/
theorem stepIgnoresTheRunFlag : Obligations.StepIgnoresTheRunFlag :=
  fun _ _ _ b h => ⟨stepWith_running h, stepWith_setRunning b h⟩

end Sys2Proof.Machine
end

section
/-! The step before the first `reset()` (70_reset_and_hazards.md R135, decision D10; log entry 6). -/

namespace Sys2Proof.Machine

variable {c : Config} {s : State}

/-- A state in which `reset()` has not been called takes no step (R135). -/
theorem stepWith_of_not_wasReset (h : s.wasReset = false) : stepWith c s = .refused .stepBeforeReset := by
  rw [stepWith, h, if_neg Bool.false_ne_true]

/-- Settles O4: construction leaves the block not reset, and `reset()` enables the step. -/
theorem stepBeforeResetIsRefused : Obligations.StepBeforeResetIsRefused := by
  intro c s
  obtain ⟨t, ht, -⟩ := stepAlwaysCompletes c ((State.construct c).hostReset c) (State.hostReset_wasReset _ c)
  exact ⟨stepWith_of_not_wasReset rfl, stepWith_of_not_wasReset, t, ht⟩

end Sys2Proof.Machine
end
